-- ==== Sys2Proof/Word.lean ====
section
/-! DEFINITION. The machine's word type and the widths of rule R5: a word, a register, the program counter and a
segment element are 32 bits; a console input byte is 8 bits; an output scalar value is 21 bits (R23). Every value
is unsigned (R8). -/

namespace Sys2Proof

/-- A 32-bit unsigned word, bit 0 least significant (R5, R7, R8). -/
abbrev Word := BitVec 32

/-- One byte of the console input (R21). -/
abbrev Byte := BitVec 8

/-- The payload of one output event: 21 bits (R23). -/
abbrev Scalar := BitVec 21

/-- A register index: a 3-bit field, 0 to 7 by construction (R10, R54). -/
abbrev RegIdx := Fin 8

end Sys2Proof
end

