-- ==== Sys2Proof/Config.lean ====
section
/-! DEFINITION. What is fixed for one machine: the fourteen operations, the fault kinds, and the parameters of rule
R6 with their defaults (OPMAP, MAX_HANDLES, MAX_WORDS, INPUT_ERROR_POLICY, FAULT_CODE). -/

namespace Sys2Proof

/-- The fourteen operations of the machine (R1, R55), named by the spec's mnemonics (R62). -/
inductive Op
  | cmov | sload | sstore | add | mul | div | nand | halt | map | unmap | out | inp | loadp | loadv
  deriving DecidableEq, Repr

/-- The fault kinds of rule R110, in its order. -/
inductive FaultKind
  /-- Opcode 14 or 15 at decode (R111). -/
  | invalidOpcode
  /-- `pc` at or past the end of segment 0 at fetch (R112). -/
  | outOfBoundsFetch
  /-- A free or out-of-range handle, or an offset past the end: SLOAD, SSTORE, LOADP (R113). -/
  | outOfBoundsAccess
  /-- UNMAP of handle 0, a free or an out-of-range handle (R114). -/
  | invalidSegmentOp
  /-- DIV by zero (R115). -/
  | divisionByZero
  /-- OUT of a value that is no Unicode scalar value (R116). -/
  | invalidOutputValue
  /-- The host loader's fault; no state of the block ever holds it (R117). -/
  | programLoadError
  /-- MAP or LOADP past a capacity parameter (R125). -/
  | resourceExhausted
  /-- IN's read error under policy `fault` (R106, R125). -/
  | inputError
  deriving DecidableEq, Repr

/-- `INPUT_ERROR_POLICY` (R6, R106). -/
inductive InputErrorPolicy
  | ignore | fault
  deriving DecidableEq, Repr

/-- `OPMAP` (R6, R55): entry `k` is the operation that opcode value `k` selects, for the fourteen assigned values. -/
abbrev OpMap := Vector Op 14

/-- The default numbering of rule R55. PRESUMED (log 1): the spec takes it from general knowledge. -/
def OpMap.default : OpMap :=
  #v[.cmov, .sload, .sstore, .add, .mul, .div, .nand, .halt, .map, .unmap, .out, .inp, .loadp, .loadv]

/-- `FAULT_CODE` (R6, R110): the 4-bit number of each fault kind on the status port. -/
structure FaultCodes where
  invalidOpcode : BitVec 4
  outOfBoundsFetch : BitVec 4
  outOfBoundsAccess : BitVec 4
  invalidSegmentOp : BitVec 4
  divisionByZero : BitVec 4
  invalidOutputValue : BitVec 4
  programLoadError : BitVec 4
  resourceExhausted : BitVec 4
  inputError : BitVec 4
  deriving DecidableEq, Repr

/-- The code numbers of rule R110's table (D7). -/
def FaultCodes.default : FaultCodes := ⟨1, 2, 3, 4, 5, 6, 7, 8, 9⟩

/-- The parameters a model takes as arguments (R6). A machine holds one `Config` for its whole life and no step
writes it (log 3). -/
structure Config where
  /-- `OPMAP`. -/
  opmap : OpMap
  /-- `MAX_HANDLES`: the largest number of slots. -/
  maxHandles : Nat
  /-- `MAX_WORDS`: the largest total number of words in mapped segments, or no bound. -/
  maxWords : Option Nat
  /-- `INPUT_ERROR_POLICY`. -/
  inputErrorPolicy : InputErrorPolicy
  /-- `FAULT_CODE`. -/
  faultCodes : FaultCodes
  deriving DecidableEq, Repr

/-- The defaults of rule R6's table. -/
def Config.default : Config :=
  { opmap := OpMap.default
    maxHandles := 2 ^ 32
    maxWords := none
    inputErrorPolicy := .ignore
    faultCodes := FaultCodes.default }

end Sys2Proof
end

