-- ==== Sys2Proof/Syntax.lean ====
section
/-! DEFINITION. The instructions: one constructor per row of spec/opcode_table.json, carrying the operands the
operation uses (R55's 'fields used', R60's second choice), in field order. -/

namespace Sys2Proof

/-- One instruction (R51, R52, R55). Register operands are 3-bit indices; LOADV's `value` is written as a 32-bit
word whose range `0..0x1FFFFFF` (R59, R62) is checked by `Instr.wf` (log 18). -/
inductive Instr
  /-- CMOV rA, rB, rC (R80). -/
  | cmov (a b c : RegIdx)
  /-- SLOAD rA, rB, rC (R90). -/
  | sload (a b c : RegIdx)
  /-- SSTORE rA, rB, rC (R91). -/
  | sstore (a b c : RegIdx)
  /-- ADD rA, rB, rC (R81). -/
  | add (a b c : RegIdx)
  /-- MUL rA, rB, rC (R82). -/
  | mul (a b c : RegIdx)
  /-- DIV rA, rB, rC (R83). -/
  | div (a b c : RegIdx)
  /-- NAND rA, rB, rC (R84). -/
  | nand (a b c : RegIdx)
  /-- HALT (R100). -/
  | halt
  /-- MAP rB, rC (R92). -/
  | map (b c : RegIdx)
  /-- UNMAP rC (R93). -/
  | unmap (c : RegIdx)
  /-- OUT rC (R102). -/
  | out (c : RegIdx)
  /-- IN rC (R104). -/
  | inp (c : RegIdx)
  /-- LOADP rB, rC (R94). -/
  | loadp (b c : RegIdx)
  /-- LOADV rA', value (R95). -/
  | loadv (rd : RegIdx) (value : Word)
  deriving DecidableEq, Repr

/-- The operation an instruction performs. -/
def Instr.op : Instr → Op
  | .cmov _ _ _ => .cmov
  | .sload _ _ _ => .sload
  | .sstore _ _ _ => .sstore
  | .add _ _ _ => .add
  | .mul _ _ _ => .mul
  | .div _ _ _ => .div
  | .nand _ _ _ => .nand
  | .halt => .halt
  | .map _ _ => .map
  | .unmap _ => .unmap
  | .out _ => .out
  | .inp _ => .inp
  | .loadp _ _ => .loadp
  | .loadv _ _ => .loadv

end Sys2Proof
end

