-- ==== Sys2Proof/WellFormed.lean ====
section
/-! DEFINITION. The checks on an instruction term and on the launch parameters. Register indices need no check: they
are in range by construction (R54). -/

namespace Sys2Proof

/-- An instruction term is well formed when LOADV's immediate fits its 25-bit field (R59, R61). -/
def Instr.wf : Instr → Bool
  | .loadv _ value => decide (value.toNat < 2 ^ 25)
  | .cmov _ _ _ | .sload _ _ _ | .sstore _ _ _ | .add _ _ _ | .mul _ _ _ | .div _ _ _ | .nand _ _ _
  | .halt | .map _ _ | .unmap _ | .out _ | .inp _ | .loadp _ _ => true

/-- Every operation, in the order of rule R55's table. -/
def Op.all : List Op :=
  [.cmov, .sload, .sstore, .add, .mul, .div, .nand, .halt, .map, .unmap, .out, .inp, .loadp, .loadv]

/-- `OPMAP` is a bijection from the fourteen operations to the values 0 to 13 (R6): no operation has two values and
every operation has one. -/
def OpMap.wf (m : OpMap) : Bool :=
  decide m.toList.Nodup && Op.all.all (fun op => m.toList.contains op)

/-- The code numbers are distinct, and none is 0, the port's value for 'not faulted' (R15, R110; log 19). -/
def FaultCodes.wf (f : FaultCodes) : Bool :=
  decide ([f.invalidOpcode, f.outOfBoundsFetch, f.outOfBoundsAccess, f.invalidSegmentOp, f.divisionByZero,
    f.invalidOutputValue, f.programLoadError, f.resourceExhausted, f.inputError, 0].Nodup)

/-- The parameters are ones rule R6 admits: OPMAP a bijection, MAX_HANDLES at least the one slot of reset and never
more than `2^32` (D8), FAULT_CODE as `FaultCodes.wf` says. -/
def Config.wf (c : Config) : Bool :=
  c.opmap.wf && decide (1 ≤ c.maxHandles) && decide (c.maxHandles ≤ 2 ^ 32) && c.faultCodes.wf

end Sys2Proof
end

