-- ==== Sys2Proof/Decode.lean ====
section
/-! DEFINITION. The Field Codec (R50 to R54), the decoder as a total function on words (R60), the encoders (R61). -/

namespace Sys2Proof

/-- The Field Codec's function, on unbounded natural numbers (R50, D13). -/
def extract (word width lsb : Nat) : Nat :=
  (word >>> lsb) &&& ((1 <<< width) - 1)

/-- `opcode = w[31:28]` (R51, R52, R54). -/
def opcodeField (w : Word) : Nat := extract w.toNat 4 28

/-- `A = w[8:6]` of the three-register form (R51, R54). -/
def fieldA (w : Word) : RegIdx := Fin.ofNat 8 (extract w.toNat 3 6)

/-- `B = w[5:3]` of the three-register form (R51, R54). -/
def fieldB (w : Word) : RegIdx := Fin.ofNat 8 (extract w.toNat 3 3)

/-- `C = w[2:0]` of the three-register form (R51, R54). -/
def fieldC (w : Word) : RegIdx := Fin.ofNat 8 (extract w.toNat 3 0)

/-- `A' = w[27:25]` of the immediate-load form (R52, R54). -/
def fieldAd (w : Word) : RegIdx := Fin.ofNat 8 (extract w.toNat 3 25)

/-- `value = w[24:0]` of the immediate-load form, zero-extended (R52, R54, R59). -/
def fieldValue (w : Word) : Word := BitVec.ofNat 32 (extract w.toNat 25 0)

/-- Why a word is no instruction. -/
inductive Illegal
  /-- The top four bits are 14 or 15 (R56). The decoder raises it; the step turns it into the fault `InvalidOpcode`
  (R72). Safe. -/
  | unassignedOpcode (opcode : Nat)
  deriving DecidableEq, Repr

/-- The instruction an operation reads from a word: only the fields it uses (R55, R57, R60). -/
def assemble (op : Op) (w : Word) : Instr :=
  match op with
  | .cmov => .cmov (fieldA w) (fieldB w) (fieldC w)
  | .sload => .sload (fieldA w) (fieldB w) (fieldC w)
  | .sstore => .sstore (fieldA w) (fieldB w) (fieldC w)
  | .add => .add (fieldA w) (fieldB w) (fieldC w)
  | .mul => .mul (fieldA w) (fieldB w) (fieldC w)
  | .div => .div (fieldA w) (fieldB w) (fieldC w)
  | .nand => .nand (fieldA w) (fieldB w) (fieldC w)
  | .halt => .halt
  | .map => .map (fieldB w) (fieldC w)
  | .unmap => .unmap (fieldC w)
  | .out => .out (fieldC w)
  | .inp => .inp (fieldC w)
  | .loadp => .loadp (fieldB w) (fieldC w)
  | .loadv => .loadv (fieldAd w) (fieldValue w)

/-- The decoder, given `OPMAP` (R60): opcode 14 and 15 are illegal, every other word is an instruction. -/
def decodeWith (m : OpMap) (w : Word) : Except Illegal Instr :=
  if h : opcodeField w < 14 then .ok (assemble m[opcodeField w] w)
  else .error (.unassignedOpcode (opcodeField w))

/-- The decoder under the default `OPMAP` (R55; log 1). -/
def decode (w : Word) : Except Illegal Instr := decodeWith OpMap.default w

/-- The opcode value `OPMAP` gives an operation: its place in the map. -/
def OpMap.opcodeOf (m : OpMap) (op : Op) : Nat := m.toList.idxOf op

/-- The three-register encoder, unused bits zero (R61). -/
def encR3 (op a b c : Nat) : Nat := op * 2 ^ 28 + a * 2 ^ 6 + b * 2 ^ 3 + c

/-- The immediate-form encoder (R61), with LOADV's opcode as an argument. -/
def encImm (op ad value : Nat) : Nat := op * 2 ^ 28 + ad * 2 ^ 25 + value

/-- The encoding of an instruction as a number, given `OPMAP` (R61). -/
def encodeNat (m : OpMap) (i : Instr) : Nat :=
  match i with
  | .cmov a b c => encR3 (m.opcodeOf .cmov) a b c
  | .sload a b c => encR3 (m.opcodeOf .sload) a b c
  | .sstore a b c => encR3 (m.opcodeOf .sstore) a b c
  | .add a b c => encR3 (m.opcodeOf .add) a b c
  | .mul a b c => encR3 (m.opcodeOf .mul) a b c
  | .div a b c => encR3 (m.opcodeOf .div) a b c
  | .nand a b c => encR3 (m.opcodeOf .nand) a b c
  | .halt => encR3 (m.opcodeOf .halt) 0 0 0
  | .map b c => encR3 (m.opcodeOf .map) 0 b c
  | .unmap c => encR3 (m.opcodeOf .unmap) 0 0 c
  | .out c => encR3 (m.opcodeOf .out) 0 0 c
  | .inp c => encR3 (m.opcodeOf .inp) 0 0 c
  | .loadp b c => encR3 (m.opcodeOf .loadp) 0 b c
  | .loadv rd value => encImm (m.opcodeOf .loadv) rd value.toNat

/-- The word of a well-formed instruction, given `OPMAP` (R61). -/
def encodeWith (m : OpMap) (i : Instr) : Word := BitVec.ofNat 32 (encodeNat m i)

/-- The word of a well-formed instruction under the default `OPMAP`. -/
def encode (i : Instr) : Word := encodeWith OpMap.default i

/-- What the decoder reads from an instruction of `nbits` bits `w`; every instruction is one 32-bit word (R53), so
the bits above `nbits` are zero and a longer instruction does not exist. -/
def decodeTableWord (nbits w : Nat) : Option Instr :=
  if nbits ≤ 32 then (decode (BitVec.ofNat 32 (w % 2 ^ nbits))).toOption else none

end Sys2Proof
end

