-- ==== Sys2Proof/Machine/State.lean ====
section
/-! DEFINITION. The machine's state as plain data (R10 to R21, R28), the reasons a step can stop, and reset. -/

namespace Sys2Proof.Machine

/-- The run state (R14). `halted` and `faulted` are terminal. -/
inductive Status
  | running
  | halted
  | faulted (reason : FaultKind)
  deriving DecidableEq, Repr

/-- One answer of the console input to one request (R21). -/
inductive InputAnswer
  | byte (b : Byte)
  /-- End-of-stream. -/
  | eof
  /-- A transport-level read error. -/
  | err
  deriving DecidableEq, Repr

/-- A segment: a sequence of `len` 32-bit words (R16). `cells` lists the words that are not 0, each with its offset,
offsets strictly rising; an unlisted offset below `len` reads 0, the value MAP gives every word (R34; log 15). -/
structure Segment where
  len : Nat
  cells : List (Nat × Word)
  deriving DecidableEq, Repr

/-- The Segment Store: the segment collection, indexed by handle (R16), and the free-list, its top first (R17). -/
structure Memory where
  slots : List Segment
  free : List Nat
  deriving DecidableEq, Repr

/-- The whole machine: the document's Machine State (register file, program counter, Segment Store), the run state,
the two console histories, the host's input answers not yet consumed, and the launch parameters. -/
structure State where
  /-- The Register File `x[0]` to `x[7]` (R10). -/
  regs : Vector Word 8
  /-- The program counter, a word index into segment 0 (R12). -/
  pc : Word
  /-- The run state (R14). -/
  status : Status
  /-- The Segment Store (R16, R17). -/
  mem : Memory
  /-- The output history, oldest first (R20). -/
  out : List Scalar
  /-- The record of input answers consumed, oldest first (R21). -/
  inp : List InputAnswer
  /-- The model's own: answers the input oracle has given and IN has not consumed, next first (R21; log 5). -/
  input : List InputAnswer
  /-- The model's own: the oracle's answer to every request after those of `input`, or none while the host has not
  answered them (R21; log 5). -/
  inputEnd : Option InputAnswer
  /-- The model's own: the launch parameters (R6; log 3). -/
  cfg : Config
  deriving DecidableEq, Repr

/-- Why `step` stops. No instruction raises one: a fault of the machine (R118) is a next state whose status is
`faulted`. -/
inductive Fault
  /-- A step was asked of a machine that has halted; `step` answers it, since no step is taken from `Halted`
  (R14, R76; log 7). Safe. -/
  | alreadyHalted
  /-- A step was asked of a machine that has faulted; `step` answers it, since no step is taken from
  `Faulted(reason)` (R14, R76, R124; log 7). Safe. -/
  | alreadyFaulted (reason : FaultKind)
  deriving DecidableEq, Repr

/-- Why an instruction has no meaning. -/
inductive Refusal
  /-- The model gives the instruction no meaning; only an arm of `exec` may answer it, and none does. Safe. -/
  | notModelled (mnemonic : String)
  deriving DecidableEq, Repr

/-- The machine right after reset (R28), before the launch supplies a program: PROGRAM is the empty sequence (log 4),
the parameters are R6's defaults, no input answer has been delivered. `pc` 0 is PRESUMED (R13; log 2). -/
def State.reset : State :=
  { regs := Vector.replicate 8 0
    pc := 0
    status := .running
    mem := { slots := [{ len := 0, cells := [] }], free := [] }
    out := []
    inp := []
    input := []
    inputEnd := none
    cfg := Config.default }

end Sys2Proof.Machine
end

