-- ==== Sys2Proof/Machine/Ops.lean ====
section
/-! DEFINITION. The shared operations: words of one segment, the five operations of the Segment Store (R34 to R38),
the console, taking a fault (R118), and program-counter routing (R74, R75). There is no return from a fault (R124). -/

namespace Sys2Proof.Machine

/-- What one step answers. -/
abbrev Answer := Host.Outcome State Fault Refusal

/-! ### One segment -/

/-- The word listed at offset `o`, or 0 where none is listed. -/
def cellAt : List (Nat × Word) → Nat → Word
  | [], _ => 0
  | (a, v) :: rest, o => if a = o then v else cellAt rest o

/-- List the word `v` at offset `o` in front of `cs`, unless it is 0. -/
def consCell (o : Nat) (v : Word) (cs : List (Nat × Word)) : List (Nat × Word) :=
  if v = 0 then cs else (o, v) :: cs

/-- Make offset `o` read `v`, keeping offsets rising and listing no 0. -/
def putCell : List (Nat × Word) → Nat → Word → List (Nat × Word)
  | [], o, v => consCell o v []
  | (a, w) :: rest, o, v =>
    if a < o then (a, w) :: putCell rest o v
    else if a = o then consCell o v rest
    else consCell o v ((a, w) :: rest)

/-- The non-zero words of `ws`, the first at offset `k`. -/
def cellsFrom : Nat → List Word → List (Nat × Word)
  | _, [] => []
  | k, w :: ws => consCell k w (cellsFrom (k + 1) ws)

/-- `seg[h][o]` for the segment `g` (R32). -/
def Segment.get (g : Segment) (o : Nat) : Word := cellAt g.cells o

/-- The segment with offset `o` holding `v`; its length stays (R37). -/
def Segment.set (g : Segment) (o : Nat) (v : Word) : Segment := { g with cells := putCell g.cells o v }

/-- `zeros(n)` (R34). -/
def Segment.zeros (n : Nat) : Segment := { len := n, cells := [] }

/-- The segment that holds the words `ws` (R19, R22). -/
def Segment.ofWords (ws : List Word) : Segment := { len := ws.length, cells := cellsFrom 0 ws }

/-- The words of a segment in order. -/
def Segment.words (g : Segment) : List Word := (List.range g.len).map g.get

/-- The canonical form of a segment: offsets strictly rising and below the length, no 0 listed. -/
abbrev Segment.wf (g : Segment) : Prop :=
  g.cells.Pairwise (fun p q => p.1 < q.1) ∧ ∀ p ∈ g.cells, p.1 < g.len ∧ p.2 ≠ 0

/-! ### The Segment Store -/

/-- Every segment is in canonical form. -/
abbrev Memory.wf (m : Memory) : Prop := ∀ g ∈ m.slots, g.wf

/-- `count`, the number of slots (R16). -/
abbrev Memory.count (m : Memory) : Nat := m.slots.length

/-- `mapped(h)` (R32). -/
def Memory.mapped (m : Memory) (h : Nat) : Bool := decide (h < m.count) && !m.free.contains h

/-- The segment in slot `h`; a slot that does not exist is empty (log 20). -/
def Memory.segment (m : Memory) (h : Nat) : Segment := m.slots[h]?.getD (Segment.zeros 0)

/-- `len(h)` (R32). -/
abbrev Memory.len (m : Memory) (h : Nat) : Nat := (m.segment h).len

/-- `total`: the number of words in all mapped segments (R32). -/
def Memory.total (m : Memory) : Nat :=
  (((List.range m.count).filter m.mapped).map m.len).sum

/-- A valid address: a mapped handle and an offset below the length (R33, D4). -/
def Memory.valid (m : Memory) (h o : Nat) : Bool := m.mapped h && decide (o < m.len h)

/-- Put a segment into slot `h`. -/
def Memory.setSlot (m : Memory) (h : Nat) (g : Segment) : Memory := { m with slots := m.slots.set h g }

/-- `n` words more than are in use now would pass `MAX_WORDS`, `inUse` being what stays in use (R34, R38). -/
def exceedsWords (cfg : Config) (inUse n : Nat) : Bool :=
  match cfg.maxWords with
  | none => false
  | some bound => decide (inUse + n > bound)

/-- `Alloc(n)` (R34): the handle and the new store, or `ResourceExhausted` before any change. -/
def Memory.alloc (m : Memory) (cfg : Config) (n : Nat) : Except FaultKind (Nat × Memory) :=
  if m.free = [] ∧ m.count = cfg.maxHandles then .error .resourceExhausted
  else if exceedsWords cfg m.total n then .error .resourceExhausted
  else match m.free with
    | h :: rest => .ok (h, { slots := m.slots.set h (Segment.zeros n), free := rest })
    | [] => .ok (m.count, { m with slots := m.slots ++ [Segment.zeros n] })

/-- `Free(h)` (R35). -/
def Memory.dealloc (m : Memory) (h : Nat) : Except FaultKind Memory :=
  if h = 0 ∨ m.count ≤ h ∨ h ∈ m.free then .error .invalidSegmentOp
  else .ok { slots := m.slots.set h (Segment.zeros 0), free := h :: m.free }

/-- `MemRead((h, o), 1)` (R36). -/
def Memory.read (m : Memory) (h o : Nat) : Except FaultKind Word :=
  if m.valid h o then .ok ((m.segment h).get o) else .error .outOfBoundsAccess

/-- `MemWrite((h, o), 1, v)` (R37). -/
def Memory.write (m : Memory) (h o : Nat) (v : Word) : Except FaultKind Memory :=
  if m.valid h o then .ok (m.setSlot h ((m.segment h).set o v)) else .error .outOfBoundsAccess

/-- `DupIntoZero(h)` (R38): the handle is tested before the capacity, both before any change (R123). -/
def Memory.dupIntoZero (m : Memory) (cfg : Config) (h : Nat) : Except FaultKind Memory :=
  if h = 0 then .ok m
  else if !m.mapped h then .error .outOfBoundsAccess
  else if exceedsWords cfg (m.total - m.len 0) (m.len h) then .error .resourceExhausted
  else .ok (m.setSlot 0 (m.segment h))

/-- Fetch (R71): the word at `pc` in segment 0, tested against its length now; no mapped-check. -/
def Memory.fetch (m : Memory) (pc : Word) : Except FaultKind Word :=
  if m.len 0 ≤ pc.toNat then .error .outOfBoundsFetch else .ok ((m.segment 0).get pc.toNat)

/-- The store with the word `w` at offset `o` of segment 0, which grows with zero words where it is too short. It is
no operation of the machine: it stands for the host's program load (R22; log 4). -/
def Memory.placeWord (m : Memory) (o : Nat) (w : Word) : Memory :=
  let grown : Segment := { m.segment 0 with len := max (m.len 0) (o + 1) }
  { m with slots := grown.set o w :: m.slots.drop 1 }

/-! ### State updates -/

/-- The state with another Segment Store. -/
def State.setMem (s : State) (m : Memory) : State := { s with mem := m }

/-- Append one scalar value to the output history (R20, R23). -/
def State.emit (s : State) (v : Scalar) : State := { s with out := s.out ++ [v] }

/-- `In()`: the oracle's answer to a request made now, or none where it has not answered yet (R21). -/
def State.nextAnswer (s : State) : Option InputAnswer :=
  match s.input with
  | a :: _ => some a
  | [] => s.inputEnd

/-- Consume the answer `a` to the present request and record it (R21, R104). -/
def State.consume (s : State) (a : InputAnswer) : State :=
  { s with input := s.input.tail, inp := s.inp ++ [a] }

/-! ### Faults and routing -/

/-- Fault entry (R118): the status and nothing else. -/
def State.fault (s : State) (k : FaultKind) : State := { s with status := .faulted k }

/-- `raise F` (R118): the step ends with the faulted state. -/
def raise (k : FaultKind) (s : State) : Answer := .next (s.fault k)

/-- What a handler that does not fault hands the Execution Loop (R74). -/
inductive Routing
  | advance
  | jump (target : Word)
  | terminate
  deriving DecidableEq, Repr

/-- Program-counter routing (R75): `pc + 1` modulo `2^32`, the jump target unchecked, or `Halted` with `pc` kept. -/
def State.route (s : State) : Routing → State
  | .advance => { s with pc := s.pc + 1 }
  | .jump t => { s with pc := t }
  | .terminate => { s with status := .halted }

/-- A handler's end: its effects are in `s`, and the loop applies its result (R70 (4), R75). -/
def finish (r : Routing) (s : State) : Answer := .next (s.route r)

/-- Go on with a Segment Store operation's result, or take its fault in the state before the instruction (R77). -/
def orRaise {α : Type} (r : Except FaultKind α) (s : State) (k : α → Answer) : Answer :=
  match r with
  | .ok a => k a
  | .error f => raise f s

end Sys2Proof.Machine
end

