-- ==== Sys2Proof/Machine/Operands.lean ====
section
/-! DEFINITION. The operand forms: a register (R10), the pair of registers that is a data address (R96), LOADV's
immediate (R59). There is no other (R59, R96). -/

namespace Sys2Proof.Machine

/-- `x[i]` (R10). -/
def State.readReg (s : State) (i : RegIdx) : Word := s.regs[i]

/-- `x[i] <- v` (R10): every register is an ordinary one, register 0 too. -/
def State.writeReg (s : State) (i : RegIdx) (v : Word) : State := { s with regs := s.regs.set i v }

/-- The effective address `(handle, offset)`: two registers, used whole (R96). -/
def State.dataAddress (s : State) (h o : RegIdx) : Nat × Nat := ((s.readReg h).toNat, (s.readReg o).toNat)

/-- LOADV's immediate: the low 25 bits, zero-extended; the document's defensive mask (R59). -/
def immediate (value : Word) : Word := value &&& 0x1FFFFFF

/-- The register value that holds a handle (R16, R18 (g)). -/
def handleWord (h : Nat) : Word := BitVec.ofNat 32 h

/-- IN's value for a byte: bits 31:8 zero (R104). -/
def byteWord (b : Byte) : Word := b.setWidth 32

/-- IN's value at end-of-stream (R104). -/
def eofWord : Word := 0xFFFFFFFF

end Sys2Proof.Machine
end

