-- ==== Sys2Proof/Machine/Flags.lean ====
section
/-! DEFINITION. The machine has no flags and no condition codes (R86, 10_state.md section 3): no instruction sets or
reads one. What the instructions compute and test in their place stands here: the results of the arithmetic of R81 to
R85, CMOV's condition (R80), OUT's test of its value (R102, R103). -/

namespace Sys2Proof.Machine

/-- CMOV's condition: the whole 32-bit value is not 0 (R80). -/
def isNonzero (v : Word) : Bool := v != 0

/-- OUT accepts exactly the Unicode scalar values (R102, R103, D11). -/
def isScalar (v : Word) : Bool :=
  decide (v.toNat ≤ 0x10FFFF) && !(decide (0xD800 ≤ v.toNat) && decide (v.toNat ≤ 0xDFFF))

/-- The low 21 bits, all of a scalar value (R23). -/
def scalarOf (v : Word) : Scalar := v.setWidth 21

/-- A value that an output event may carry (R23). -/
def Scalar.ok (v : Scalar) : Bool := isScalar (v.setWidth 32)

/-- ADD's result (R81, R85). -/
def addResult (b c : Word) : Word := b + c

/-- MUL's result (R82, R85). -/
def mulResult (b c : Word) : Word := b * c

/-- DIV's result, or its fault; unsigned (R83, R85). -/
def divResult (b c : Word) : Except FaultKind Word :=
  if c = 0 then .error .divisionByZero else .ok (b / c)

/-- NAND's result (R84). -/
def nandResult (b c : Word) : Word := ~~~(b &&& c)

end Sys2Proof.Machine
end

