-- ==== Sys2Proof/Machine/Alu.lean ====
section
/-! DEFINITION. Register arithmetic and logic: CMOV, ADD, MUL, DIV, NAND (41_alu.md, R80 to R86). -/

namespace Sys2Proof.Machine

/-- CMOV (R80): no register is written when `x[C] = 0`. -/
def execCmov (a b c : RegIdx) (s : State) : Answer :=
  finish .advance (if isNonzero (s.readReg c) then s.writeReg a (s.readReg b) else s)

/-- ADD (R81). -/
def execAdd (a b c : RegIdx) (s : State) : Answer :=
  finish .advance (s.writeReg a (addResult (s.readReg b) (s.readReg c)))

/-- MUL (R82). -/
def execMul (a b c : RegIdx) (s : State) : Answer :=
  finish .advance (s.writeReg a (mulResult (s.readReg b) (s.readReg c)))

/-- DIV (R83): the check comes before the write. -/
def execDiv (a b c : RegIdx) (s : State) : Answer :=
  orRaise (divResult (s.readReg b) (s.readReg c)) s fun q => finish .advance (s.writeReg a q)

/-- NAND (R84). -/
def execNand (a b c : RegIdx) (s : State) : Answer :=
  finish .advance (s.writeReg a (nandResult (s.readReg b) (s.readReg c)))

end Sys2Proof.Machine
end

