-- ==== Sys2Proof/Machine/Console.lean ====
section
/-! DEFINITION. Console instructions: OUT, IN (44_io.md, R102 to R107). -/

namespace Sys2Proof.Machine

/-- OUT (R102). It always completes on a scalar value (R23, D20). -/
def execOut (c : RegIdx) (s : State) : Answer :=
  if isScalar (s.readReg c) then finish .advance (s.emit (scalarOf (s.readReg c)))
  else raise .invalidOutputValue s

/-- IN (R104 to R106). While the oracle has not answered the step holds: the next state is the same state
(R79, R105; log 6). A read error is ignored or is the fault `InputError`, as the policy says (R106). -/
def execIn (c : RegIdx) (s : State) : Answer :=
  match s.nextAnswer with
  | none => .next s
  | some (.byte b) => finish .advance ((s.consume (.byte b)).writeReg c (byteWord b))
  | some .eof => finish .advance ((s.consume .eof).writeReg c eofWord)
  | some .err =>
    match s.cfg.inputErrorPolicy with
    | .ignore => finish .advance (s.consume .err)
    | .fault => raise .inputError s

end Sys2Proof.Machine
end

