-- ==== Sys2Proof/Machine/Control.lean ====
section
/-! DEFINITION. HALT (43_halt.md, R100, R101). -/

namespace Sys2Proof.Machine

/-- HALT (R100): result `Terminate`; nothing but the run state changes. -/
def execHalt (s : State) : Answer := finish .terminate s

end Sys2Proof.Machine
end

