-- ==== Sys2Proof/Machine/MemoryOps.lean ====
section
/-! DEFINITION. Memory instructions: SLOAD, SSTORE, MAP, UNMAP, LOADP, LOADV (42_memory_ops.md, R90 to R96). -/

namespace Sys2Proof.Machine

/-- The address SLOAD reads: handle `x[B]`, offset `x[C]` (R90). -/
def sloadAddress (b c : RegIdx) (s : State) : Nat × Nat := s.dataAddress b c

/-- The address SSTORE writes: handle `x[A]`, offset `x[B]` (R91). -/
def sstoreAddress (a b : RegIdx) (s : State) : Nat × Nat := s.dataAddress a b

/-- SLOAD (R90). -/
def execSload (a b c : RegIdx) (s : State) : Answer :=
  orRaise (s.mem.read (sloadAddress b c s).1 (sloadAddress b c s).2) s fun v =>
    finish .advance (s.writeReg a v)

/-- SSTORE (R91): the value is `x[C]`. -/
def execSstore (a b c : RegIdx) (s : State) : Answer :=
  orRaise (s.mem.write (sstoreAddress a b s).1 (sstoreAddress a b s).2 (s.readReg c)) s fun m =>
    finish .advance (s.setMem m)

/-- MAP (R92): the length is the old `x[C]`; the handle goes to `x[B]`. -/
def execMap (b c : RegIdx) (s : State) : Answer :=
  orRaise (s.mem.alloc s.cfg (s.readReg c).toNat) s fun r =>
    finish .advance ((s.setMem r.2).writeReg b (handleWord r.1))

/-- UNMAP (R93). -/
def execUnmap (c : RegIdx) (s : State) : Answer :=
  orRaise (s.mem.dealloc (s.readReg c).toNat) s fun m => finish .advance (s.setMem m)

/-- LOADP (R94): copy segment `x[B]` into segment 0, continue at `x[C]`, which the next fetch checks. -/
def execLoadp (b c : RegIdx) (s : State) : Answer :=
  orRaise (s.mem.dupIntoZero s.cfg (s.readReg b).toNat) s fun m =>
    finish (.jump (s.readReg c)) (s.setMem m)

/-- LOADV (R95). -/
def execLoadv (rd : RegIdx) (value : Word) (s : State) : Answer :=
  finish .advance (s.writeReg rd (immediate value))

end Sys2Proof.Machine
end

