-- ==== Sys2Proof/Machine/Step.lean ====
section
/-! DEFINITION. One step of the Execution Loop (R70): fetch, decode, dispatch, route. -/

namespace Sys2Proof.Machine

/-- One step. It is taken only in `Running` (R70, R76): asked of a terminal state, `step` stops with the model's own
fault (log 7). A fetch or decode that fails takes its fault (R71, R72, R123), a next state. -/
def step (s : State) : Host.Outcome State Fault Refusal :=
  match s.status with
  | .halted => .fault .alreadyHalted
  | .faulted k => .fault (.alreadyFaulted k)
  | .running =>
    orRaise (s.mem.fetch s.pc) s fun w =>
      match decodeWith s.cfg.opmap w with
      | .ok i => exec i s
      | .error _ => raise .invalidOpcode s

/-- `s` with the instruction of `nbits` bits `w` at offset `pc` of segment 0, and running: all that the next fetch
needs. It stands for the host's program load (R22; log 4). -/
def State.withFetchWord (s : State) (nbits w : Nat) : State :=
  { s with
    status := .running
    mem := s.mem.placeWord s.pc.toNat (BitVec.ofNat 32 (w % 2 ^ nbits)) }

end Sys2Proof.Machine
end

