-- ==== Sys2Proof/Machine/DenseStore.lean ====
section
/-! DEFINITION. The Segment Store as the pseudocode of rules R32 to R38 writes it, every segment the plain list of its
words. The machine runs on `Memory`, which lists non-zero words only; this is the reference that store is compared
with. -/

namespace Sys2Proof.Machine

/-- `slots` and `free` (R16, R17). -/
structure DenseStore where
  slots : List (List Word)
  free : List Nat
  deriving DecidableEq, Repr

/-- The store a `Memory` stands for. -/
def Memory.dense (m : Memory) : DenseStore := { slots := m.slots.map Segment.words, free := m.free }

namespace DenseStore

/-- `mapped(h)` (R32). -/
def mapped (d : DenseStore) (h : Nat) : Bool := decide (h < d.slots.length) && !d.free.contains h

/-- The words of slot `h`. -/
def seg (d : DenseStore) (h : Nat) : List Word := d.slots[h]?.getD []

/-- `total` (R32). -/
def total (d : DenseStore) : Nat :=
  (((List.range d.slots.length).filter d.mapped).map fun h => (d.seg h).length).sum

/-- R34. -/
def alloc (d : DenseStore) (cfg : Config) (n : Nat) : Except FaultKind (Nat × DenseStore) :=
  if d.free = [] ∧ d.slots.length = cfg.maxHandles then .error .resourceExhausted
  else if cfg.maxWords.any (fun bound => bound < d.total + n) then .error .resourceExhausted
  else match d.free with
    | h :: rest => .ok (h, { slots := d.slots.set h (List.replicate n 0), free := rest })
    | [] => .ok (d.slots.length, { d with slots := d.slots ++ [List.replicate n 0] })

/-- R35. -/
def dealloc (d : DenseStore) (h : Nat) : Except FaultKind DenseStore :=
  if h = 0 ∨ d.slots.length ≤ h ∨ h ∈ d.free then .error .invalidSegmentOp
  else .ok { slots := d.slots.set h [], free := h :: d.free }

/-- R36. -/
def read (d : DenseStore) (h o : Nat) : Except FaultKind Word :=
  if d.mapped h then
    match (d.seg h)[o]? with
    | some v => .ok v
    | none => .error .outOfBoundsAccess
  else .error .outOfBoundsAccess

/-- R37. -/
def write (d : DenseStore) (h o : Nat) (v : Word) : Except FaultKind DenseStore :=
  if d.mapped h ∧ o < (d.seg h).length then .ok { d with slots := d.slots.set h ((d.seg h).set o v) }
  else .error .outOfBoundsAccess

/-- R38. -/
def dupIntoZero (d : DenseStore) (cfg : Config) (h : Nat) : Except FaultKind DenseStore :=
  if h = 0 then .ok d
  else if !d.mapped h then .error .outOfBoundsAccess
  else if cfg.maxWords.any (fun bound => bound < d.total - (d.seg 0).length + (d.seg h).length) then .error .resourceExhausted
  else .ok { d with slots := d.slots.set 0 (d.seg h) }

/-- R71. -/
def fetch (d : DenseStore) (pc : Nat) : Except FaultKind Word :=
  match (d.seg 0)[pc]? with
  | some w => .ok w
  | none => .error .outOfBoundsFetch

end DenseStore

end Sys2Proof.Machine
end

