-- ==== Sys2Proof/Machine/HostInterface.lean ====
section
/-! DEFINITION. What the host does to the block and sees of it (R22 to R25): the program load that resets it, the
answers it gives to input requests, the status port, the diagnostic information of a fault, and, for completeness, the
image format of its loader (R134), which stands outside the block. -/

namespace Sys2Proof.Machine

/-- Reset with a program (R22, R28, R130): every piece of state at the value of R28's table. A launch with a program
of `2^32` words or more (D12) or with parameters outside R6 is refused. -/
def launch (cfg : Config) (program : List Word) : Option State :=
  if cfg.wf ∧ program.length < 2 ^ 32 then
    some { State.reset with
      mem := { slots := [Segment.ofWords program], free := [] }
      cfg := cfg }
  else none

/-- The host gives the answer to the next unanswered input request (R21, R24, R79). Where every request is answered
already there is none, and nothing changes. -/
def State.deliver (s : State) (a : InputAnswer) : State :=
  match s.inputEnd with
  | none => { s with input := s.input ++ [a] }
  | some _ => s

/-- A host whose input stream holds `bytes`: it answers every request, with the bytes in order, then with end-of-stream
for ever, the oracle of rule R21's premise `InputIs(bytes)`. It is for a state to which no answer has been given, as after
`launch`. -/
def State.feed (s : State) (bytes : List Byte) : State :=
  { s with input := bytes.map .byte, inputEnd := some .eof }

/-- `STATE` of the status port (R15, D24). -/
def Status.stateField : Status → BitVec 2
  | .running => 0
  | .halted => 1
  | .faulted _ => 2

/-- The code number of a fault kind (R110, D7). -/
def faultCode (f : FaultCodes) : FaultKind → BitVec 4
  | .invalidOpcode => f.invalidOpcode
  | .outOfBoundsFetch => f.outOfBoundsFetch
  | .outOfBoundsAccess => f.outOfBoundsAccess
  | .invalidSegmentOp => f.invalidSegmentOp
  | .divisionByZero => f.divisionByZero
  | .invalidOutputValue => f.invalidOutputValue
  | .programLoadError => f.programLoadError
  | .resourceExhausted => f.resourceExhausted
  | .inputError => f.inputError

/-- `REASON` of the status port (R15, D24): 0 while not faulted. -/
def Status.reasonField (f : FaultCodes) : Status → BitVec 4
  | .running => 0
  | .halted => 0
  | .faulted k => faultCode f k

/-- The status port: `STATE` and `REASON` (R15, R25). -/
def State.statusPort (s : State) : BitVec 2 × BitVec 4 :=
  (s.status.stateField, s.status.reasonField s.cfg.faultCodes)

/-- What the block can offer the host for its message on a fault (R111 to R116, R119). It is no state. -/
structure Diagnostic where
  reason : FaultKind
  pc : Word
  /-- The fetched word, for `InvalidOpcode` (R111). -/
  word : Option Word
  /-- `len(0)`, for `OutOfBoundsFetch` (R112). -/
  limit : Option Nat
  /-- The handle, for `OutOfBoundsAccess` and `InvalidSegmentOp` (R113, R114). -/
  handle : Option Word
  /-- The offset, for `OutOfBoundsAccess` of SLOAD and SSTORE (R113). -/
  offset : Option Word
  /-- The value, for `InvalidOutputValue` (R116). -/
  value : Option Word
  deriving DecidableEq, Repr

/-- The word at `pc`, where the fetch succeeds. -/
def State.currentWord (s : State) : Option Word := (s.mem.fetch s.pc).toOption

/-- The instruction at `pc`, where there is one. -/
def State.currentInstr (s : State) : Option Instr :=
  s.currentWord.bind fun w => (decodeWith s.cfg.opmap w).toOption

/-- The handle register of an instruction that can fault on a handle (R113, R114). -/
def handleOperand : Instr → Option RegIdx
  | .sload _ b _ => some b
  | .sstore a _ _ => some a
  | .loadp b _ => some b
  | .unmap c => some c
  | .cmov _ _ _ | .add _ _ _ | .mul _ _ _ | .div _ _ _ | .nand _ _ _ | .halt | .map _ _ | .out _ | .inp _
  | .loadv _ _ => none

/-- The offset register of an instruction that can fault on an offset (R113). -/
def offsetOperand : Instr → Option RegIdx
  | .sload _ _ c => some c
  | .sstore _ b _ => some b
  | .cmov _ _ _ | .add _ _ _ | .mul _ _ _ | .div _ _ _ | .nand _ _ _ | .halt | .map _ _ | .unmap _ | .out _
  | .inp _ | .loadp _ _ | .loadv _ _ => none

/-- The value register of OUT (R116). -/
def valueOperand : Instr → Option RegIdx
  | .out c => some c
  | .cmov _ _ _ | .sload _ _ _ | .sstore _ _ _ | .add _ _ _ | .mul _ _ _ | .div _ _ _ | .nand _ _ _ | .halt
  | .map _ _ | .unmap _ | .inp _ | .loadp _ _ | .loadv _ _ => none

/-- The information of the faults of R111 to R116, read back from the faulted state: faults are precise (R118), so
`pc`, the word at it and the operand registers are those of the faulting instruction (log 21). -/
def State.diagnostic (s : State) : Option Diagnostic :=
  match s.status with
  | .running | .halted => none
  | .faulted k =>
    let operand (f : Instr → Option RegIdx) : Option Word := (s.currentInstr.bind f).map s.readReg
    let plain : Diagnostic :=
      { reason := k, pc := s.pc, word := none, limit := none, handle := none, offset := none, value := none }
    some (match k with
      | .invalidOpcode => { plain with word := s.currentWord }
      | .outOfBoundsFetch => { plain with limit := some (s.mem.len 0) }
      | .outOfBoundsAccess => { plain with handle := operand handleOperand, offset := operand offsetOperand }
      | .invalidSegmentOp => { plain with handle := operand handleOperand }
      | .invalidOutputValue => { plain with value := operand valueOperand }
      | .divisionByZero | .programLoadError | .resourceExhausted | .inputError => plain)

/-- How many ignored read errors the block has reported to the host's diagnostic stream (R106): one for each consumed
`err`, since under policy `fault` an `err` is never consumed. -/
def State.ignoredErrors (s : State) : Nat := s.inp.count .err

/-- One big-endian word (R134). -/
def bigEndian (b0 b1 b2 b3 : Byte) : Word :=
  BitVec.ofNat 32 (b0.toNat * 2 ^ 24 + b1.toNat * 2 ^ 16 + b2.toNat * 2 ^ 8 + b3.toNat)

/-- The host loader's framing of an image into words; a trailing partial chunk is dropped (R134). -/
def loadImage : List Byte → List Word
  | b0 :: b1 :: b2 :: b3 :: rest => bigEndian b0 b1 b2 b3 :: loadImage rest
  | [_, _, _] | [_, _] | [_] | [] => []

end Sys2Proof.Machine
end

