-- ==== Sys2Proof/Safety.lean ====
section
/-! DEFINITION. What a safe run is: the invariant of rule R18 with the other facts every state of a run has, the ends
of a run (R76), and the words statements use for 'unchanged'. -/

namespace Sys2Proof.Machine

/-- R18 (c) to (g), and that slot 0 exists (R19, R34). Clause (a) is how `mapped` is defined, clause (b) how the
operations check it. -/
abbrev Memory.StoreInv (m : Memory) (cfg : Config) : Prop :=
  1 ≤ m.count ∧
  0 ∉ m.free ∧
  m.free.Nodup ∧
  (∀ h ∈ m.free, h < m.count) ∧
  (∀ h ∈ m.free, m.segment h = Segment.zeros 0) ∧
  (∀ g ∈ m.slots, g.len < 2 ^ 32) ∧
  m.count ≤ cfg.maxHandles

/-- The facts every state of a run has: parameters R6 admits, memory in canonical form, R18, an output history of
scalar values only (R23), and no `ProgramLoadError` (R117). -/
abbrev State.Inv (s : State) : Prop :=
  s.cfg.wf = true ∧
  s.mem.wf ∧
  s.mem.StoreInv s.cfg ∧
  s.out.all Scalar.ok = true ∧
  s.status ≠ .faulted .programLoadError

/-- A run is over exactly in a terminal state (R76). -/
def State.Ended (s : State) : Prop := s.status ≠ .running

/-- The one clean end (R76, R118). -/
def State.EndedCleanly (s : State) : Prop := s.status = .halted

/-- The states a run from `s` passes through. -/
inductive Reaches (s : State) : State → Prop
  | start : Reaches s s
  | next {t u : State} : Reaches s t → step t = .next u → Reaches s u

/-- A safe run: no state it passes through is faulted. -/
def State.Safe (s : State) : Prop := ∀ t, Reaches s t → ∀ k, t.status ≠ .faulted k

/-- The premise `InputIs(bytes)` of rule R21, of the requests still to come: the `k`-th is answered by the `k`-th byte,
and every one after the last byte by end-of-stream, without bound. -/
abbrev State.InputIs (s : State) (bytes : List Byte) : Prop :=
  s.input = bytes.map .byte ∧ s.inputEnd = some .eof

/-- The answer that premise gives to the request with `k` requests before it. -/
def inputIsAnswer (bytes : List Byte) (k : Nat) : InputAnswer :=
  match bytes[k]? with
  | some b => .byte b
  | none => .eof

/-! ### What an instruction may touch -/

/-- Rule R10's table, 'register written'. -/
def written : Instr → Option RegIdx
  | .cmov a _ _ | .sload a _ _ | .add a _ _ | .mul a _ _ | .nand a _ _ | .div a _ _ => some a
  | .map b _ => some b
  | .inp c => some c
  | .loadv rd _ => some rd
  | .sstore _ _ _ | .halt | .unmap _ | .out _ | .loadp _ _ => none

/-- Rule R10's table, 'registers read'. -/
def readBy : Instr → List RegIdx
  | .cmov _ b c | .sload _ b c | .add _ b c | .mul _ b c | .nand _ b c | .div _ b c | .loadp b c => [b, c]
  | .sstore a b c => [a, b, c]
  | .map _ c | .unmap c | .out c => [c]
  | .halt | .inp _ | .loadv _ _ => []

/-- Rule R110's table, 'raised by', for the faults of a handler. -/
def MayRaise (s : State) (i : Instr) (k : FaultKind) : Prop :=
  match k with
  | .outOfBoundsAccess => i.op = .sload ∨ i.op = .sstore ∨ i.op = .loadp
  | .invalidSegmentOp => i.op = .unmap
  | .divisionByZero => i.op = .div
  | .invalidOutputValue => i.op = .out
  | .resourceExhausted => i.op = .map ∨ (i.op = .loadp ∧ s.cfg.maxWords ≠ none)
  | .inputError => i.op = .inp ∧ s.cfg.inputErrorPolicy = .fault
  | .invalidOpcode | .outOfBoundsFetch | .programLoadError => False

/-! ### What an instruction leaves unchanged -/

/-- Every register outside `written` holds what it held. -/
def RegsKept (written : List RegIdx) (s t : State) : Prop :=
  ∀ r, r ∉ written → t.readReg r = s.readReg r

/-- Every word of memory, every length, the number of slots and the free-list are as before. -/
def MemoryKept (s t : State) : Prop :=
  (∀ h o, t.mem.read h o = s.mem.read h o) ∧ (∀ h, t.mem.len h = s.mem.len h) ∧
  t.mem.count = s.mem.count ∧ t.mem.free = s.mem.free

/-- The output history is as before. -/
def OutputKept (s t : State) : Prop := t.out = s.out

/-- No input request was made. -/
def InputKept (s t : State) : Prop := t.input = s.input ∧ t.inputEnd = s.inputEnd ∧ t.inp = s.inp

/-- The instruction advanced: `pc + 1` modulo `2^32`, the run state and the parameters as before (R75). -/
def Advanced (s t : State) : Prop :=
  t.pc.toNat = (s.pc.toNat + 1) % 2 ^ 32 ∧ t.status = s.status ∧ t.cfg = s.cfg

end Sys2Proof.Machine
end

