-- ==== Sys2Proof/Certificates/Slice0/Obligations.lean ====
section
/-! DEFINITION. The statements about the model. Each docstring names the rule of spec/ it formalises. -/

open Sys2Proof Sys2Proof.Machine

namespace Sys2Proof.Rules

/-- The 3-bit register index at bits `lsb+2 : lsb` of a word (R7, R51, R52). -/
def regBits (w : Word) (lsb : Nat) : RegIdx := Fin.ofNat 8 (w.toNat / 2 ^ lsb)

/-- The unsigned number at bits 31:28 of a word (R7). -/
def topBits (w : Word) : Nat := w.toNat / 2 ^ 28

/-- `seg[h][o]` as a list position; `none` past the length (R32). -/
def wordAt (s : State) (h o : Nat) : Option Word := (s.mem.segment h).words[o]?

/-- A valid address (R33): the handle mapped, the offset below the length. -/
abbrev ValidAddress (s : State) (h o : Nat) : Prop := (h < s.mem.count ∧ h ∉ s.mem.free) ∧ o < s.mem.len h

/-- A mapped handle (R32). -/
abbrev Mapped (s : State) (h : Nat) : Prop := h < s.mem.count ∧ h ∉ s.mem.free

/-- Words in use that stay, and words added, pass a finite `MAX_WORDS` (R34, R38). -/
def OverWords (s : State) (stay added : Nat) : Prop := ∃ bound, s.cfg.maxWords = some bound ∧ stay + added > bound

/-- Another handle's segment is as before: every word, and its length. -/
def SegmentsKeptBut (h : Nat) (s t : State) : Prop :=
  ∀ h', h' ≠ h → (∀ o, t.mem.read h' o = s.mem.read h' o) ∧ t.mem.len h' = s.mem.len h'

/-- A Unicode scalar value (R102). -/
abbrev UnicodeScalar (v : Nat) : Prop := v ≤ 0x10FFFF ∧ ¬(0xD800 ≤ v ∧ v ≤ 0xDFFF)

/-- The machine runs, the word `w` stands at `pc` in segment 0, and it decodes to `i`. -/
def About (s : State) (i : Instr) : Prop :=
  s.status = .running ∧ ∃ w, wordAt s 0 s.pc.toNat = some w ∧ decodeWith s.cfg.opmap w = .ok i

/-- The oracle answers a request made now with `a` (R21; log 5). -/
def Answered (s : State) (a : InputAnswer) : Prop :=
  (∃ rest, s.input = a :: rest) ∨ (s.input = [] ∧ s.inputEnd = some a)

/-- The oracle has not answered a request made now (R21; log 5). -/
abbrev Unanswered (s : State) : Prop := s.input = [] ∧ s.inputEnd = none

/-- Two states alike but for what the slots of free handles hold. -/
def AlikeButFreeSlots (s t : State) : Prop :=
  s.regs = t.regs ∧ s.pc = t.pc ∧ s.status = t.status ∧ s.out = t.out ∧ s.inp = t.inp ∧ s.input = t.input ∧
  s.inputEnd = t.inputEnd ∧
  s.cfg = t.cfg ∧ s.mem.free = t.mem.free ∧ s.mem.count = t.mem.count ∧
  s.mem.segment 0 = t.mem.segment 0 ∧ ∀ h, Mapped s h → s.mem.segment h = t.mem.segment h

/-- `s` with older histories put before its own. -/
def withOlder (out : List Scalar) (inp : List InputAnswer) (s : State) : State :=
  { s with out := out ++ s.out, inp := inp ++ s.inp }

end Sys2Proof.Rules

open Sys2Proof.Rules

/-! ### Encoding -/

/-- Words the spec writes out in 95_test_vectors.md section 2.2 decode to the instructions it gives. Under the default
OPMAP, whose numbering is PRESUMED (log 1). -/
def Obligations.SpecWordsDecode : Prop :=
  decode 0xD0000048 = .ok (.loadv 0 72) ∧ decode 0xA0000000 = .ok (.out 0) ∧ decode 0x70000000 = .ok .halt ∧
  decode 0x7FFFFFFF = .ok .halt ∧ decode 0x3FFFFE49 = .ok (.add 1 1 1) ∧ decode 0x900001FA = .ok (.unmap 2) ∧
  decode 0xDBABCDEF = .ok (.loadv 5 0x1ABCDEF) ∧ decode 0x00000000 = .ok (.cmov 0 0 0) ∧
  decode 0xE0000000 = .error (.unassignedOpcode 14) ∧ decode 0xF0000000 = .error (.unassignedOpcode 15)

/-- Rule R55's table: the default OPMAP is a bijection and gives each operation its number. The numbering is PRESUMED
(log 1). -/
def Obligations.DefaultOpcodeNumbers : Prop :=
  OpMap.default.wf = true ∧
  OpMap.default.opcodeOf .cmov = 0 ∧ OpMap.default.opcodeOf .sload = 1 ∧ OpMap.default.opcodeOf .sstore = 2 ∧
  OpMap.default.opcodeOf .add = 3 ∧ OpMap.default.opcodeOf .mul = 4 ∧ OpMap.default.opcodeOf .div = 5 ∧
  OpMap.default.opcodeOf .nand = 6 ∧ OpMap.default.opcodeOf .halt = 7 ∧ OpMap.default.opcodeOf .map = 8 ∧
  OpMap.default.opcodeOf .unmap = 9 ∧ OpMap.default.opcodeOf .out = 10 ∧ OpMap.default.opcodeOf .inp = 11 ∧
  OpMap.default.opcodeOf .loadp = 12 ∧ OpMap.default.opcodeOf .loadv = 13

/-- R60: the decoder on every word, for every OPMAP: opcode 14 and 15 are illegal, every other value is some
operation's, and that operation's instruction is read from the fields of its format. -/
def Obligations.DecodeReadsTheFieldsOfTheOpcode : Prop :=
  ∀ (m : OpMap) (w : Word), m.wf = true →
    (14 ≤ topBits w → ∃ e, decodeWith m w = .error e) ∧
    (topBits w < 14 → ∃ op, topBits w = m.opcodeOf op) ∧
    (topBits w = m.opcodeOf .cmov → decodeWith m w = .ok (.cmov (regBits w 6) (regBits w 3) (regBits w 0))) ∧
    (topBits w = m.opcodeOf .sload → decodeWith m w = .ok (.sload (regBits w 6) (regBits w 3) (regBits w 0))) ∧
    (topBits w = m.opcodeOf .sstore → decodeWith m w = .ok (.sstore (regBits w 6) (regBits w 3) (regBits w 0))) ∧
    (topBits w = m.opcodeOf .add → decodeWith m w = .ok (.add (regBits w 6) (regBits w 3) (regBits w 0))) ∧
    (topBits w = m.opcodeOf .mul → decodeWith m w = .ok (.mul (regBits w 6) (regBits w 3) (regBits w 0))) ∧
    (topBits w = m.opcodeOf .div → decodeWith m w = .ok (.div (regBits w 6) (regBits w 3) (regBits w 0))) ∧
    (topBits w = m.opcodeOf .nand → decodeWith m w = .ok (.nand (regBits w 6) (regBits w 3) (regBits w 0))) ∧
    (topBits w = m.opcodeOf .halt → decodeWith m w = .ok .halt) ∧
    (topBits w = m.opcodeOf .map → decodeWith m w = .ok (.map (regBits w 3) (regBits w 0))) ∧
    (topBits w = m.opcodeOf .unmap → decodeWith m w = .ok (.unmap (regBits w 0))) ∧
    (topBits w = m.opcodeOf .out → decodeWith m w = .ok (.out (regBits w 0))) ∧
    (topBits w = m.opcodeOf .inp → decodeWith m w = .ok (.inp (regBits w 0))) ∧
    (topBits w = m.opcodeOf .loadp → decodeWith m w = .ok (.loadp (regBits w 3) (regBits w 0))) ∧
    (topBits w = m.opcodeOf .loadv →
      decodeWith m w = .ok (.loadv (regBits w 25) (BitVec.ofNat 32 (w.toNat % 2 ^ 25))))

/-- R60, R61: for every OPMAP, decoding the encoding of a well-formed instruction gives it back. -/
def Obligations.DecodeOfEncodeIsTheInstruction : Prop :=
  ∀ (m : OpMap) (i : Instr), m.wf = true → i.wf = true → decodeWith m (encodeWith m i) = .ok i

/-- R61, R57: for every OPMAP and every legal word, encoding what was decoded gives a word that decodes alike and has
every unused bit 0: bits 27:9 of every three-register word, the field A of MAP and LOADP, A and B of UNMAP, OUT and IN,
A, B and C of HALT; for LOADV, which uses every bit, it gives the word itself. -/
def Obligations.EncodeOfDecodeClearsUnusedBits : Prop :=
  ∀ (m : OpMap) (w : Word) (i : Instr), m.wf = true → decodeWith m w = .ok i →
    i.wf = true ∧ decodeWith m (encodeWith m i) = .ok i ∧ topBits (encodeWith m i) = topBits w ∧
    (i.op = .loadv → encodeWith m i = w) ∧
    (i.op ≠ .loadv → extract (encodeWith m i).toNat 19 9 = 0) ∧
    (i.op = .map ∨ i.op = .loadp → extract (encodeWith m i).toNat 3 6 = 0) ∧
    (i.op = .unmap ∨ i.op = .out ∨ i.op = .inp → extract (encodeWith m i).toNat 6 3 = 0) ∧
    (i.op = .halt → extract (encodeWith m i).toNat 9 0 = 0)

/-- The document's 'Field round-trip' (R61, S1): three-register and immediate words give their fields back. -/
def Obligations.FieldRoundTrip : Prop :=
  (∀ op a b c : Nat, op ≤ 15 → a ≤ 7 → b ≤ 7 → c ≤ 7 →
    extract (encR3 op a b c) 4 28 = op ∧ extract (encR3 op a b c) 3 6 = a ∧
    extract (encR3 op a b c) 3 3 = b ∧ extract (encR3 op a b c) 3 0 = c) ∧
  (∀ op ad v : Nat, op ≤ 15 → ad ≤ 7 → v < 2 ^ 25 →
    extract (encImm op ad v) 4 28 = op ∧ extract (encImm op ad v) 3 25 = ad ∧ extract (encImm op ad v) 25 0 = v)

/-- R50 and D13: `extract` is a slice of the number, total for every width and position. -/
def Obligations.ExtractIsASlice : Prop :=
  ∀ word width lsb : Nat,
    extract word width lsb = word / 2 ^ lsb % 2 ^ width ∧
    (width = 0 → extract word width lsb = 0) ∧
    (word < 2 ^ 32 → 32 ≤ lsb → extract word width lsb = 0)

/-- R57 and D3: bits and fields an operation does not use do not change what a word decodes to, and no word with a top
value below 14 is illegal. -/
def Obligations.UnusedBitsAreIgnored : Prop :=
  ∀ (m : OpMap) (w v : Word), m.wf = true → topBits w = topBits v →
    (topBits w < 14 → ∃ i, decodeWith m w = .ok i) ∧
    (topBits w ≠ m.opcodeOf .loadv → w.toNat % 2 ^ 9 = v.toNat % 2 ^ 9 → decodeWith m w = decodeWith m v) ∧
    (topBits w = m.opcodeOf .map ∨ topBits w = m.opcodeOf .loadp → w.toNat % 2 ^ 6 = v.toNat % 2 ^ 6 →
      decodeWith m w = decodeWith m v) ∧
    (topBits w = m.opcodeOf .unmap ∨ topBits w = m.opcodeOf .out ∨ topBits w = m.opcodeOf .inp →
      w.toNat % 2 ^ 3 = v.toNat % 2 ^ 3 → decodeWith m w = decodeWith m v) ∧
    (topBits w = m.opcodeOf .halt → decodeWith m w = decodeWith m v)

/-! ### The Execution Loop -/

/-- R70, R73: a step of a running machine is the meaning of the instruction that the word at `pc` decodes to; the
loop adds nothing around it. -/
def Obligations.StepRunsTheDecodedInstruction : Prop :=
  ∀ (s : State) (i : Instr), About s i → step s = exec i s

/-- R71: the fetch is tested against segment 0's length at this step; a word inside it is what is decoded and run, and
such a step never ends in `OutOfBoundsFetch`. -/
def Obligations.FetchIsCheckedAgainstSegmentZero : Prop :=
  ∀ s : State, s.status = .running →
    (s.mem.len 0 ≤ s.pc.toNat → ∃ t, step s = .next t ∧ t.status = .faulted .outOfBoundsFetch) ∧
    (s.pc.toNat < s.mem.len 0 → ∃ w, wordAt s 0 s.pc.toNat = some w ∧
      (∀ i, decodeWith s.cfg.opmap w = .ok i → step s = exec i s) ∧
      ∀ t, step s = .next t → t.status ≠ .faulted .outOfBoundsFetch)

/-- R56: a fetched word whose top bits are 14 or 15 ends the step with `InvalidOpcode`, whatever OPMAP is and
whatever its other bits are; no other fetched word does. -/
def Obligations.UnassignedOpcodesFault : Prop :=
  ∀ (s : State) (w : Word), s.status = .running → wordAt s 0 s.pc.toNat = some w →
    (14 ≤ topBits w → ∃ t, step s = .next t ∧ t.status = .faulted .invalidOpcode) ∧
    (topBits w < 14 → ∀ t, step s = .next t → t.status ≠ .faulted .invalidOpcode)

/-- R14: the run state starts `Running`; no step is taken from a terminal state; a step makes it `Halted` only by
HALT; no instruction reads it: under another run state an instruction has the same effect, and ends in the same run
state, or leaves that one where it left the first. -/
def Obligations.RunStateIsTerminalOnceEnded : Prop :=
  State.reset.status = .running ∧
  (∀ s t : State, s.status ≠ .running → step s ≠ .next t) ∧
  (∀ s t : State, step s = .next t → t.status = .running ∨ (t.status = .halted ∧ About s .halt) ∨
    ∃ k, t.status = .faulted k) ∧
  (∀ (i : Instr) (s t : State) (x : Status), exec i s = .next t →
    ∃ u, exec i { s with status := x } = .next u ∧ u.regs = t.regs ∧ u.pc = t.pc ∧ u.mem = t.mem ∧ u.out = t.out ∧
      u.input = t.input ∧ u.inputEnd = t.inputEnd ∧ u.inp = t.inp ∧ u.cfg = t.cfg ∧
      (u.status = t.status ∨ (t.status = s.status ∧ u.status = x)))

/-- R118 and D5: a step that ends in a fault changes the run state and nothing else. -/
def Obligations.FaultsArePrecise : Prop :=
  ∀ (s t : State) (k : FaultKind), step s = .next t → t.status = .faulted k → t = { s with status := .faulted k }

/-- R74: HALT returns `Terminate`, LOADP `Jump(x[C])`, the other twelve `Advance`, and a handler that faults moves
nothing; a hold (R79) is no result. -/
def Obligations.HandlerResults : Prop :=
  ∀ (i : Instr) (s t : State), s.status = .running → exec i s = .next t →
    (t.status = .halted ↔ i = .halt) ∧
    (∀ b c, i = .loadp b c → t.status = .running → t.pc = s.readReg c) ∧
    (i ≠ .halt → (∀ b c, i ≠ .loadp b c) → ¬(i.op = .inp ∧ Unanswered s) → t.status = .running →
      t.pc.toNat = (s.pc.toNat + 1) % 2 ^ 32) ∧
    (∀ k, t.status = .faulted k → t.pc = s.pc)

/-- R110, R125: a handler raises only the faults the table gives its instruction; the six instructions the rule names,
and MAP and IN with parameters at their defaults, raise none (the capacity test aside). -/
def Obligations.FaultsComeFromTheirInstructions : Prop :=
  ∀ (i : Instr) (s t : State) (k : FaultKind), s.status = .running → exec i s = .next t → t.status = .faulted k →
    MayRaise s i k

/-- R12, R75: in a state of a run, a successful fetch leaves room for `pc + 1`: the wrap is never reached. -/
def Obligations.ProgramCounterNeverWraps : Prop :=
  ∀ (s : State) (w : Word), s.Inv → wordAt s 0 s.pc.toNat = some w → s.pc.toNat + 1 < 2 ^ 32

/-- R79, R105: a running machine always has a step. At an unanswered IN the step holds: the state stays (that a hold is
a step to the same state is the model's form, log 6). The host's answer lifts it: the step consumes that answer, or is
the fault `InputError`. -/
def Obligations.StepIsEnabledAndInputHolds : Prop :=
  ∀ s : State, s.status = .running →
    (∃ t, step s = .next t) ∧
    (∀ c, About s (.inp c) → Unanswered s → step s = .next s ∧
      ∀ a, ∃ t, step (s.deliver a) = .next t ∧
        ((t.status = .running ∧ Unanswered t ∧ t.inp = s.inp ++ [a] ∧
          t.pc.toNat = (s.pc.toNat + 1) % 2 ^ 32) ∨
        (a = .err ∧ s.cfg.inputErrorPolicy = .fault ∧ t.status = .faulted .inputError)))

/-! ### Registers -/

/-- R10: a register holds what was written to it, register 0 too; each instruction writes no register but the one of
the table, CMOV and DIV only when `x[C] != 0`, IN not on a read error; and a register the table does not list as read
has no influence on anything but itself. -/
def Obligations.RegistersReadAndWrittenAsTabled : Prop :=
  (∀ (s : State) (r q : RegIdx) (v : Word), (s.writeReg r v).readReg q = if q = r then v else s.readReg q) ∧
  ∀ (i : Instr) (s t : State), exec i s = .next t →
    (∀ r, t.readReg r ≠ s.readReg r → written i = some r ∧
      (∀ a b c, i = .cmov a b c ∨ i = .div a b c → s.readReg c ≠ 0) ∧
      (∀ c, i = .inp c → ∃ a, Answered s a ∧ a ≠ .err)) ∧
    (∀ r v, r ∉ readBy i → ∃ u, exec i (s.writeReg r v) = .next u ∧
      u.pc = t.pc ∧ u.status = t.status ∧ u.mem = t.mem ∧ u.out = t.out ∧ u.input = t.input ∧
      u.inputEnd = t.inputEnd ∧ u.inp = t.inp ∧ u.cfg = t.cfg ∧
      (∀ q, q ≠ r → u.readReg q = t.readReg q) ∧
      (u.readReg r = t.readReg r ∨ (u.readReg r = v ∧ t.readReg r = s.readReg r)))

/-- R11: all registers are zero at startup, and reading one is defined. -/
def Obligations.RegistersAreZeroAtStartup : Prop :=
  (∀ r, State.reset.readReg r = 0) ∧
  ∀ (cfg : Config) (program : List Word) (s : State), launch cfg program = some s → ∀ r, s.readReg r = 0

/-! ### Arithmetic and logic -/

/-- R80: CMOV. It always completes. -/
def Obligations.CmovMovesWhenNonzero : Prop :=
  ∀ (a b c : RegIdx) (s : State), ∃ t, exec (.cmov a b c) s = .next t ∧
    (s.readReg c ≠ 0 → t.readReg a = s.readReg b) ∧ (s.readReg c = 0 → t.readReg a = s.readReg a) ∧
    RegsKept [a] s t ∧ Advanced s t ∧ MemoryKept s t ∧ OutputKept s t ∧ InputKept s t

/-- R81: ADD, modulo `2^32`, the sum of the old values. It always completes. -/
def Obligations.AddIsModular : Prop :=
  ∀ (a b c : RegIdx) (s : State), ∃ t, exec (.add a b c) s = .next t ∧
    (t.readReg a).toNat = ((s.readReg b).toNat + (s.readReg c).toNat) % 2 ^ 32 ∧
    RegsKept [a] s t ∧ Advanced s t ∧ MemoryKept s t ∧ OutputKept s t ∧ InputKept s t

/-- R82: MUL, modulo `2^32`. It always completes. -/
def Obligations.MulIsModular : Prop :=
  ∀ (a b c : RegIdx) (s : State), ∃ t, exec (.mul a b c) s = .next t ∧
    (t.readReg a).toNat = ((s.readReg b).toNat * (s.readReg c).toNat) % 2 ^ 32 ∧
    RegsKept [a] s t ∧ Advanced s t ∧ MemoryKept s t ∧ OutputKept s t ∧ InputKept s t

/-- R83, R115: DIV, the unsigned floor quotient, completes exactly on a non-zero divisor; on zero it faults. -/
def Obligations.DivIsFloorOrFaults : Prop :=
  ∀ (a b c : RegIdx) (s : State),
    (s.readReg c ≠ 0 → ∃ t, exec (.div a b c) s = .next t ∧
      (t.readReg a).toNat = (s.readReg b).toNat / (s.readReg c).toNat ∧
      RegsKept [a] s t ∧ Advanced s t ∧ MemoryKept s t ∧ OutputKept s t ∧ InputKept s t) ∧
    (s.readReg c = 0 → exec (.div a b c) s = .next { s with status := .faulted .divisionByZero })

/-- R84: NAND, `(2^32 - 1) - (x[B] AND x[C])`. It always completes. -/
def Obligations.NandIsComplementOfAnd : Prop :=
  ∀ (a b c : RegIdx) (s : State), ∃ t, exec (.nand a b c) s = .next t ∧
    (t.readReg a).toNat = (2 ^ 32 - 1) - ((s.readReg b).toNat &&& (s.readReg c).toNat) ∧
    (∀ k, k < 32 → ((t.readReg a).getLsbD k = true ↔
      ¬((s.readReg b).getLsbD k = true ∧ (s.readReg c).getLsbD k = true))) ∧
    RegsKept [a] s t ∧ Advanced s t ∧ MemoryKept s t ∧ OutputKept s t ∧ InputKept s t

/-! ### Memory instructions -/

/-- R90, R36, R113: SLOAD completes exactly at a valid address, and faults at every other. -/
def Obligations.SloadReadsTheAddressedWord : Prop :=
  ∀ (a b c : RegIdx) (s : State) (h o : Nat), sloadAddress b c s = (h, o) →
    h = (s.readReg b).toNat ∧ o = (s.readReg c).toNat ∧
    (ValidAddress s h o → ∃ t, exec (.sload a b c) s = .next t ∧
      wordAt s h o = some (t.readReg a) ∧
      RegsKept [a] s t ∧ Advanced s t ∧ MemoryKept s t ∧ OutputKept s t ∧ InputKept s t) ∧
    (¬ValidAddress s h o → exec (.sload a b c) s = .next { s with status := .faulted .outOfBoundsAccess })

/-- R91, R37, R113: SSTORE completes exactly at a valid address; it writes that word and no other, and no length. -/
def Obligations.SstoreWritesOnlyTheAddressedWord : Prop :=
  ∀ (a b c : RegIdx) (s : State) (h o : Nat), s.mem.wf → sstoreAddress a b s = (h, o) →
    h = (s.readReg a).toNat ∧ o = (s.readReg b).toNat ∧
    (ValidAddress s h o → ∃ t, exec (.sstore a b c) s = .next t ∧
      t.mem.read h o = .ok (s.readReg c) ∧
      (∀ h' o', (h', o') ≠ (h, o) → t.mem.read h' o' = s.mem.read h' o') ∧
      (∀ h', t.mem.len h' = s.mem.len h') ∧ t.mem.count = s.mem.count ∧ t.mem.free = s.mem.free ∧
      RegsKept [] s t ∧ Advanced s t ∧ OutputKept s t ∧ InputKept s t) ∧
    (¬ValidAddress s h o → exec (.sstore a b c) s = .next { s with status := .faulted .outOfBoundsAccess })

/-- R92, R34: MAP faults exactly at a capacity bound. Otherwise it gives the top of the free-list, else `count`, a
handle that is not 0 and was not mapped, whose segment now is `x[C]` zero words; every other segment is as before. -/
def Obligations.MapAllocatesZeroedSegment : Prop :=
  ∀ (b c : RegIdx) (s : State) (n : Nat), s.Inv → n = (s.readReg c).toNat →
    ((s.mem.free = [] ∧ s.mem.count = s.cfg.maxHandles) ∨ OverWords s s.mem.total n →
      exec (.map b c) s = .next { s with status := .faulted .resourceExhausted }) ∧
    (¬(s.mem.free = [] ∧ s.mem.count = s.cfg.maxHandles) → ¬OverWords s s.mem.total n →
      ∃ t h, exec (.map b c) s = .next t ∧
        ((∃ rest, s.mem.free = h :: rest ∧ t.mem.free = rest ∧ t.mem.count = s.mem.count) ∨
         (s.mem.free = [] ∧ h = s.mem.count ∧ t.mem.free = [] ∧ t.mem.count = s.mem.count + 1)) ∧
        (t.readReg b).toNat = h ∧ h ≠ 0 ∧ ¬Mapped s h ∧ Mapped t h ∧
        t.mem.len h = n ∧ (∀ o, o < n → t.mem.read h o = .ok 0) ∧ SegmentsKeptBut h s t ∧
        RegsKept [b] s t ∧ Advanced s t ∧ OutputKept s t ∧ InputKept s t)

/-- R93, R35, R114: UNMAP faults exactly on handle 0, a free or an out-of-range handle. Otherwise the handle is pushed
on the free-list, every access to it faults, and every other segment is as before. -/
def Obligations.UnmapFreesTheHandle : Prop :=
  ∀ (c : RegIdx) (s : State) (h : Nat), h = (s.readReg c).toNat →
    (h = 0 ∨ ¬Mapped s h → exec (.unmap c) s = .next { s with status := .faulted .invalidSegmentOp }) ∧
    (h ≠ 0 → Mapped s h → ∃ t, exec (.unmap c) s = .next t ∧
      t.mem.free = h :: s.mem.free ∧ t.mem.count = s.mem.count ∧ t.mem.segment h = Segment.zeros 0 ∧
      (∀ o, t.mem.read h o = .error .outOfBoundsAccess) ∧ SegmentsKeptBut h s t ∧
      RegsKept [] s t ∧ Advanced s t ∧ OutputKept s t ∧ InputKept s t)

/-- R94, R38, R113, R123: LOADP with handle 0 only jumps; with a handle that is not mapped it faults, before the
capacity is looked at; past a finite MAX_WORDS it faults; else segment 0 reads as the source read, with its length,
every other segment is as before, and `pc` is the unchecked target. -/
def Obligations.LoadpCopiesAndJumps : Prop :=
  ∀ (b c : RegIdx) (s : State) (h : Nat), s.Inv → h = (s.readReg b).toNat →
    (h = 0 → exec (.loadp b c) s = .next { s with pc := s.readReg c }) ∧
    (h ≠ 0 → ¬Mapped s h → exec (.loadp b c) s = .next { s with status := .faulted .outOfBoundsAccess }) ∧
    (h ≠ 0 → Mapped s h → OverWords s (s.mem.total - s.mem.len 0) (s.mem.len h) →
      exec (.loadp b c) s = .next { s with status := .faulted .resourceExhausted }) ∧
    (h ≠ 0 → Mapped s h → ¬OverWords s (s.mem.total - s.mem.len 0) (s.mem.len h) →
      ∃ t, exec (.loadp b c) s = .next t ∧ t.pc = s.readReg c ∧ t.status = s.status ∧ t.cfg = s.cfg ∧
        t.mem.len 0 = s.mem.len h ∧ (∀ o, t.mem.read 0 o = s.mem.read h o) ∧ SegmentsKeptBut 0 s t ∧
        t.mem.count = s.mem.count ∧ t.mem.free = s.mem.free ∧
        RegsKept [] s t ∧ OutputKept s t ∧ InputKept s t)

/-- R95, R59: LOADV puts the low 25 bits of its value, zero-extended, into `x[A']`: all of a well-formed one's value.
It always completes. -/
def Obligations.LoadvZeroExtends : Prop :=
  ∀ (rd : RegIdx) (value : Word) (s : State), ∃ t, exec (.loadv rd value) s = .next t ∧
    (t.readReg rd).toNat = value.toNat % 2 ^ 25 ∧ ((Instr.loadv rd value).wf = true → t.readReg rd = value) ∧
    RegsKept [rd] s t ∧ Advanced s t ∧ MemoryKept s t ∧ OutputKept s t ∧ InputKept s t

/-! ### Halt and console -/

/-- R100 and D6: HALT sets the run state to `Halted` and changes nothing else. -/
def Obligations.HaltTerminates : Prop :=
  ∀ s : State, exec .halt s = .next { s with status := .halted }

/-- R102, R103, R116: OUT completes exactly on a Unicode scalar value and appends it; on any other value it faults and
writes nothing. -/
def Obligations.OutEmitsScalarValues : Prop :=
  ∀ (c : RegIdx) (s : State),
    (UnicodeScalar (s.readReg c).toNat → ∃ t e, exec (.out c) s = .next t ∧
      e.toNat = (s.readReg c).toNat ∧ t.out = s.out ++ [e] ∧
      RegsKept [] s t ∧ Advanced s t ∧ MemoryKept s t ∧ InputKept s t) ∧
    (¬UnicodeScalar (s.readReg c).toNat →
      exec (.out c) s = .next { s with status := .faulted .invalidOutputValue })

/-- R104, R106: IN takes one answer: a byte zero-extended, all ones at end-of-stream, nothing on an ignored error, or
the fault `InputError` under that policy. With no answer it holds. (The queue of answers is the model's form of the
oracle, log 5; a hold is a step to the same state, log 6; that the faulting IN leaves its answer unrecorded is log 8.) -/
def Obligations.InConsumesOneAnswer : Prop :=
  ∀ (c : RegIdx) (s : State),
    (Unanswered s → exec (.inp c) s = .next s) ∧
    (∀ a, Answered s a → (a = .err → s.cfg.inputErrorPolicy = .ignore) →
      ∃ t, exec (.inp c) s = .next t ∧ t.input = s.input.tail ∧ t.inputEnd = s.inputEnd ∧ t.inp = s.inp ++ [a] ∧
        (∀ b, a = .byte b → (t.readReg c).toNat = b.toNat) ∧
        (a = .eof → t.readReg c = 0xFFFFFFFF) ∧
        (a = .err → t.readReg c = s.readReg c) ∧
        RegsKept [c] s t ∧ Advanced s t ∧ MemoryKept s t ∧ OutputKept s t) ∧
    (Answered s .err → s.cfg.inputErrorPolicy = .fault →
      exec (.inp c) s = .next { s with status := .faulted .inputError })

/-- R20: the output history starts empty; a step leaves it or appends one scalar value, `x[C]` of an OUT at `pc`, so
nothing is ever removed; and every OUT that does not fault appends its value. -/
def Obligations.OutputHistoryOnlyGrowsByOut : Prop :=
  State.reset.out = [] ∧
  (∀ s t : State, step s = .next t → t.out = s.out ∨
    ∃ c e, About s (.out c) ∧ e.toNat = (s.readReg c).toNat ∧ UnicodeScalar e.toNat ∧ t.out = s.out ++ [e]) ∧
  (∀ (s t : State) (c : RegIdx), About s (.out c) → step s = .next t → t.status = .running →
    ∃ e, e.toNat = (s.readReg c).toNat ∧ t.out = s.out ++ [e])

/-- R21, R104, R107: answers are consumed in order, at most one a step, only by IN, and none is lost: a step leaves the
waiting answers, what follows them, and the record; or an IN at `pc` took exactly the oracle's answer and recorded it. (The
queue and its end are the model's form of the oracle, log 5.) -/
def Obligations.InputAnswersAreConsumedInOrder : Prop :=
  ∀ s t : State, step s = .next t → t.inputEnd = s.inputEnd ∧
    ((t.input = s.input ∧ t.inp = s.inp) ∨
     ((∃ c, About s (.inp c)) ∧ ∃ a, t.inp = s.inp ++ [a] ∧
      (s.input = a :: t.input ∨ (s.input = [] ∧ t.input = [] ∧ s.inputEnd = some a))))

/-- R21's premise `InputIs(bytes)`, on every run from a state that has made no request: the `k`-th request is answered
by the `k`-th byte, every later one by end-of-stream, without bound; so no IN ever holds, and no error occurs. (The field
that answers without bound is the model's form of the oracle, log 5.) -/
def Obligations.InputIsAnswersEveryRequest : Prop :=
  ∀ (s t : State) (bytes : List Byte), s.InputIs bytes → s.inp = [] → Reaches s t →
    t.InputIs (bytes.drop t.inp.length) ∧
    t.inp = (List.range t.inp.length).map (inputIsAnswer bytes) ∧
    ∀ c, About t (.inp c) → ∃ u, step t = .next u ∧ u.status = .running ∧
      u.inp = t.inp ++ [inputIsAnswer bytes t.inp.length] ∧
      (u.readReg c).toNat = (match bytes[t.inp.length]? with
        | some b => b.toNat
        | none => 2 ^ 32 - 1)

/-- R20, R21: no rule reads the two histories: a step does with longer ones what it does with shorter ones. -/
def Obligations.HistoriesAreNeverRead : Prop :=
  ∀ (s t : State) (o : List Scalar) (j : List InputAnswer), step s = .next t →
    step (withOlder o j s) = .next (withOlder o j t)

/-! ### The Segment Store as a whole -/

/-- R17: Unmap pushes on the top of the free-list, Map pops from the top; so two handles unmapped in turn come back in
the opposite order from the next two Maps that complete. -/
def Obligations.FreeListIsLastInFirstOut : Prop :=
  (∀ (c : RegIdx) (s t : State), exec (.unmap c) s = .next t → t.status = s.status → s.status = .running →
    t.mem.free = (s.readReg c).toNat :: s.mem.free) ∧
  (∀ (b c : RegIdx) (s t : State) (h : Nat) (rest : List Nat), exec (.map b c) s = .next t → s.status = .running →
    t.status = .running → s.mem.free = h :: rest → t.mem.free = rest ∧ t.readReg b = BitVec.ofNat 32 h) ∧
  (∀ (c1 c2 b1 n1 b2 n2 : RegIdx) (s s1 s2 s3 s4 : State), s.status = .running →
    exec (.unmap c1) s = .next s1 → exec (.unmap c2) s1 = .next s2 →
    exec (.map b1 n1) s2 = .next s3 → exec (.map b2 n2) s3 = .next s4 → s4.status = .running →
    s1.status = .running → s2.status = .running → s3.status = .running →
    s3.readReg b1 = s1.readReg c2 ∧ s4.readReg b2 = s.readReg c1)

/-- R18, R23, R117 and the canonical form of memory, whole: every step keeps the invariant, from every state that has
it. -/
def Obligations.InvariantIsKeptByEveryStep : Prop :=
  ∀ s t : State, s.Inv → step s = .next t → t.Inv

/-- R18, R19, R28: the state after reset has the invariant, with any program a launch accepts and with none. -/
def Obligations.LaunchMeetsTheInvariant : Prop :=
  State.reset.Inv ∧
  ∀ (cfg : Config) (program : List Word) (s : State), launch cfg program = some s → s.Inv

/-- R28, R130, D12: a launch sets every piece of state to the table's value and is refused only for parameters outside
R6 or a program of `2^32` words or more. (`pc` 0 is PRESUMED, log 2; the refusals are logs 14 and 26.) -/
def Obligations.LaunchGivesTheResetTable : Prop :=
  ∀ (cfg : Config) (program : List Word),
    ((∃ s, launch cfg program = some s) ↔ cfg.wf = true ∧ program.length < 2 ^ 32) ∧
    ∀ s, launch cfg program = some s →
      (∀ r, s.readReg r = 0) ∧ s.pc = 0 ∧ s.status = .running ∧
      s.mem.count = 1 ∧ (s.mem.segment 0).words = program ∧ s.mem.free = [] ∧
      s.out = [] ∧ s.inp = [] ∧ s.input = [] ∧ s.inputEnd = none ∧ s.cfg = cfg

/-- R16: the number of slots only grows, by at most one a step, and a segment other than segment 0 that is mapped
before and after a step keeps its length. -/
def Obligations.SegmentCollectionOnlyGrows : Prop :=
  ∀ s t : State, step s = .next t →
    s.mem.count ≤ t.mem.count ∧ t.mem.count ≤ s.mem.count + 1 ∧
    ∀ h, h ≠ 0 → Mapped s h → Mapped t h → t.mem.len h = s.mem.len h

/-- R43 (b) to (d): a word at an address valid before and after a step changes only by the SSTORE to that address, to
the value stored, or, in segment 0, by a LOADP of another segment. -/
def Obligations.MemoryChangesOnlyByItsWriters : Prop :=
  ∀ (s t : State) (h o : Nat), s.mem.wf → step s = .next t → ValidAddress s h o → ValidAddress t h o →
    t.mem.read h o ≠ s.mem.read h o →
    (∃ a b c, About s (.sstore a b c) ∧ sstoreAddress a b s = (h, o) ∧ t.mem.read h o = .ok (s.readReg c)) ∨
    (h = 0 ∧ ∃ b c, About s (.loadp b c) ∧ (s.readReg b).toNat ≠ 0 ∧
      t.mem.read 0 o = s.mem.read (s.readReg b).toNat o)

/-- R45: a store into segment 0 is what the next fetch of that word finds, and after LOADP fetches find the source's
words. -/
def Obligations.FetchSeesStoresAtOnce : Prop :=
  (∀ (a b c : RegIdx) (s t : State), s.mem.wf → s.status = .running → exec (.sstore a b c) s = .next t →
    t.status = .running → (s.readReg a).toNat = 0 →
    t.mem.fetch (s.readReg b) = .ok (s.readReg c) ∧
    ∀ pc, pc ≠ s.readReg b → t.mem.fetch pc = s.mem.fetch pc) ∧
  (∀ (b c : RegIdx) (s t : State) (pc w : Word), s.Inv → s.status = .running → exec (.loadp b c) s = .next t →
    t.status = .running →
    (t.mem.fetch pc = .ok w ↔ wordAt s (s.readReg b).toNat pc.toNat = some w))

/-- R38: LOADP's copy is by value: a later store to segment 0 leaves the source as it was, and a later store to the
source leaves segment 0 as it was. -/
def Obligations.LoadProgramCopyIsByValue : Prop :=
  ∀ (b c a' b' c' : RegIdx) (s t u : State) (h : Nat), s.Inv → s.status = .running → h = (s.readReg b).toNat →
    h ≠ 0 → exec (.loadp b c) s = .next t → t.status = .running → exec (.sstore a' b' c') t = .next u →
    ((t.readReg a').toNat = 0 → ∀ o, u.mem.read h o = s.mem.read h o) ∧
    ((t.readReg a').toNat = h → ∀ o, u.mem.read 0 o = s.mem.read h o)

/-- R18 (e), R26: no rule observes what a free slot holds: two states alike but for that stay alike, step by step, and
stop alike. -/
def Obligations.FreeSlotContentsAreInvisible : Prop :=
  ∀ s t : State, AlikeButFreeSlots s t →
    (∀ s', step s = .next s' → ∃ t', step t = .next t' ∧ AlikeButFreeSlots s' t') ∧
    (∀ f, step s = .fault f → step t = .fault f)

/-- R32 to R38, R71: the store the machine runs on, which lists non-zero words only, does in every operation what the
rules' pseudocode does on plain sequences of words. -/
def Obligations.StoreRefinesThePseudocode : Prop :=
  ∀ (m : Memory) (cfg : Config), m.wf →
    (∀ h o, m.read h o = m.dense.read h o) ∧
    (∀ pc : Word, m.fetch pc = m.dense.fetch pc.toNat) ∧
    (∀ h o v, (m.write h o v).map Memory.dense = m.dense.write h o v) ∧
    (∀ n, (m.alloc cfg n).map (fun r => (r.1, r.2.dense)) = m.dense.alloc cfg n) ∧
    (∀ h, (m.dealloc h).map Memory.dense = m.dense.dealloc h) ∧
    (∀ h, (m.dupIntoZero cfg h).map Memory.dense = m.dense.dupIntoZero cfg h)

/-- The canonical form is canonical (log 15): two canonical stores that stand for the same sequences of words are the
same data. -/
def Obligations.CanonicalStoresAreEqualData : Prop :=
  ∀ m k : Memory, m.wf → k.wf → m.dense = k.dense → m = k

/-! ### Host interface and parameters -/

/-- R15, R110, D7, D24: the status port: STATE 0, 1, 2 and never 3; REASON 0 unless faulted, else the number FAULT_CODE
gives the reason, whatever the parameters are; the default numbers are the table's. -/
def Obligations.StatusPortEncodesTheRunState : Prop :=
  ∀ s : State,
    (s.status = .running ↔ s.statusPort.1 = 0) ∧ (s.status = .halted ↔ s.statusPort.1 = 1) ∧
    ((∃ k, s.status = .faulted k) ↔ s.statusPort.1 = 2) ∧ s.statusPort.1 ≠ 3 ∧
    (s.statusPort.1 ≠ 2 → s.statusPort.2 = 0) ∧
    (∀ k, s.status = .faulted k → s.statusPort.2 = faultCode s.cfg.faultCodes k) ∧
    Config.default.faultCodes = FaultCodes.default ∧
    (faultCode FaultCodes.default .invalidOpcode = 1 ∧ faultCode FaultCodes.default .outOfBoundsFetch = 2 ∧
      faultCode FaultCodes.default .outOfBoundsAccess = 3 ∧ faultCode FaultCodes.default .invalidSegmentOp = 4 ∧
      faultCode FaultCodes.default .divisionByZero = 5 ∧ faultCode FaultCodes.default .invalidOutputValue = 6 ∧
      faultCode FaultCodes.default .programLoadError = 7 ∧ faultCode FaultCodes.default .resourceExhausted = 8 ∧
      faultCode FaultCodes.default .inputError = 9)

/-- R119, R111 to R116: the information offered to the host on a fault, read back from the faulted state, names the
fault, the `pc`, and the word, length, handle, offset or value the rule names. -/
def Obligations.DiagnosticsNameTheFault : Prop :=
  ∀ (s t : State) (k : FaultKind), step s = .next t → t.status = .faulted k →
    ∃ d, t.diagnostic = some d ∧ d.reason = k ∧ d.pc = s.pc ∧
      (k = .invalidOpcode → d.word = wordAt s 0 s.pc.toNat) ∧
      (k = .outOfBoundsFetch → d.limit = some (s.mem.len 0)) ∧
      (∀ a b c, About s (.sload a b c) → k = .outOfBoundsAccess →
        d.handle = some (s.readReg b) ∧ d.offset = some (s.readReg c)) ∧
      (∀ a b c, About s (.sstore a b c) → k = .outOfBoundsAccess →
        d.handle = some (s.readReg a) ∧ d.offset = some (s.readReg b)) ∧
      (∀ b c, About s (.loadp b c) → k = .outOfBoundsAccess → d.handle = some (s.readReg b) ∧ d.offset = none) ∧
      (∀ c, About s (.unmap c) → k = .invalidSegmentOp → d.handle = some (s.readReg c)) ∧
      (∀ c, About s (.out c) → k = .invalidOutputValue → d.value = some (s.readReg c))

/-- R134: the loader's framing: `PLEN = floor(L / 4)`, each word the four bytes from its place, the first the most
significant; the bytes past the last whole chunk are dropped. -/
def Obligations.ImageIsBigEndianWords : Prop :=
  ∀ b : List Byte, (loadImage b).length = b.length / 4 ∧
    ∀ (i : Nat) (b0 b1 b2 b3 : Byte), b[4 * i]? = some b0 → b[4 * i + 1]? = some b1 → b[4 * i + 2]? = some b2 →
      b[4 * i + 3]? = some b3 →
      (loadImage b)[i]?.map BitVec.toNat =
        some (b0.toNat * 2 ^ 24 + b1.toNat * 2 ^ 16 + b2.toNat * 2 ^ 8 + b3.toNat)

/-- R6: no step changes a launch parameter (that the state carries them is the model's form, log 3). -/
def Obligations.LaunchParametersNeverChange : Prop :=
  ∀ s t : State, step s = .next t → t.cfg = s.cfg
end

