-- ==== Sys2Proof/Laws/Decode.lean ====
section
/-! SUPPORT. The Field Codec as division and remainder, the numbering, and the fields of an encoded word. -/

namespace Sys2Proof

/-- `extract` is `floor(word / 2^lsb) mod 2^width` (R50). -/
theorem extract_eq (word width lsb : Nat) : extract word width lsb = word / 2 ^ lsb % 2 ^ width := by
  rw [extract, Nat.one_shiftLeft, Nat.and_two_pow_sub_one_eq_mod, Nat.shiftRight_eq_div_pow]

theorem extract_lt (word width lsb : Nat) : extract word width lsb < 2 ^ width := by
  rw [extract_eq]; exact Nat.mod_lt _ (Nat.two_pow_pos width)

theorem opcodeField_eq (w : Word) : opcodeField w = w.toNat / 2 ^ 28 := by
  have := w.isLt
  rw [opcodeField, extract_eq]
  omega

theorem fieldA_val (w : Word) : (fieldA w).val = w.toNat / 2 ^ 6 % 8 := by
  simp [fieldA, extract_eq, Fin.ofNat]

theorem fieldB_val (w : Word) : (fieldB w).val = w.toNat / 2 ^ 3 % 8 := by
  simp [fieldB, extract_eq, Fin.ofNat]

theorem fieldC_val (w : Word) : (fieldC w).val = w.toNat % 8 := by
  simp [fieldC, extract_eq, Fin.ofNat]

theorem fieldAd_val (w : Word) : (fieldAd w).val = w.toNat / 2 ^ 25 % 8 := by
  simp [fieldAd, extract_eq, Fin.ofNat]

theorem fieldValue_toNat (w : Word) : (fieldValue w).toNat = w.toNat % 2 ^ 25 := by
  simp only [fieldValue, extract_eq, BitVec.toNat_ofNat]; omega

/-! ### OPMAP -/

theorem OpMap.mem_of_wf {m : OpMap} (hm : m.wf = true) (op : Op) : op ∈ m.toList := by
  simp only [OpMap.wf, Bool.and_eq_true, List.all_eq_true, List.contains_iff_mem] at hm
  exact hm.2 op (by cases op <;> simp [Op.all])

theorem OpMap.nodup_of_wf {m : OpMap} (hm : m.wf = true) : m.toList.Nodup := by
  simp only [OpMap.wf, Bool.and_eq_true, decide_eq_true_eq] at hm
  exact hm.1

/-- Every operation has one of the fourteen assigned values (R55). -/
theorem OpMap.opcodeOf_lt {m : OpMap} (hm : m.wf = true) (op : Op) : m.opcodeOf op < 14 := by
  have h := List.idxOf_lt_length_of_mem (m.mem_of_wf hm op)
  simpa [OpMap.opcodeOf] using h

/-- The value of an operation selects it. -/
theorem OpMap.get_opcodeOf {m : OpMap} (hm : m.wf = true) (op : Op) :
    m[m.opcodeOf op]'(m.opcodeOf_lt hm op) = op := by
  have h := List.getElem_idxOf (List.idxOf_lt_length_of_mem (m.mem_of_wf hm op))
  rwa [Vector.getElem_toList] at h

/-- A value selects the operation whose value it is. -/
theorem OpMap.opcodeOf_get {m : OpMap} (hm : m.wf = true) {k : Nat} (hk : k < 14) : m.opcodeOf m[k] = k := by
  have h := (m.nodup_of_wf hm).idxOf_getElem k (by simpa using hk)
  simpa [OpMap.opcodeOf] using h

theorem OpMap.default_wf : OpMap.default.wf = true := by decide

/-! ### The decoder -/

/-- A word whose opcode an operation has decodes to that operation's instruction (R60). -/
theorem decodeWith_of_opcode {m : OpMap} (hm : m.wf = true) {w : Word} {op : Op}
    (h : opcodeField w = m.opcodeOf op) : decodeWith m w = .ok (assemble op w) := by
  have hlt := m.opcodeOf_lt hm op
  have hop := m.get_opcodeOf hm op
  simp only [decodeWith, h, hlt, dite_true, hop]

theorem decodeWith_eq_error {m : OpMap} {w : Word} {e : Illegal} :
    decodeWith m w = .error e ↔ 14 ≤ w.toNat / 2 ^ 28 ∧ e = .unassignedOpcode (w.toNat / 2 ^ 28) := by
  simp only [decodeWith, opcodeField_eq]
  split
  · simp; omega
  · next h => simp only [Except.error.injEq, eq_comm (b := e)]; exact ⟨fun h' => ⟨by omega, h'⟩, And.right⟩

theorem decodeWith_eq_ok {m : OpMap} {w : Word} {i : Instr} :
    decodeWith m w = .ok i ↔ ∃ h : w.toNat / 2 ^ 28 < 14, assemble m[w.toNat / 2 ^ 28] w = i := by
  simp only [decodeWith, opcodeField_eq]
  split
  · next h => exact ⟨fun h' => ⟨h, Except.ok.inj h'⟩, fun ⟨_, h'⟩ => congrArg _ h'⟩
  · next h => exact ⟨fun h' => (nomatch h'), fun ⟨h', _⟩ => absurd h' h⟩

/-- An assembled instruction performs the operation it was assembled for, and is well formed. -/
theorem assemble_op (op : Op) (w : Word) : (assemble op w).op = op := by cases op <;> rfl

theorem assemble_wf (op : Op) (w : Word) : (assemble op w).wf = true := by
  cases op <;> simp [assemble, Instr.wf, fieldValue_toNat]
  omega

/-! ### The encoders -/

/-- The three-register encoding fits a word, and its fields are the ones encoded (R61). -/
theorem encR3_fields {op a b c : Nat} (ho : op ≤ 15) (ha : a ≤ 7) (hb : b ≤ 7) (hc : c ≤ 7) :
    encR3 op a b c < 2 ^ 32 ∧ encR3 op a b c / 2 ^ 28 = op ∧ encR3 op a b c / 2 ^ 6 % 8 = a ∧
      encR3 op a b c / 2 ^ 3 % 8 = b ∧ encR3 op a b c % 8 = c := by
  unfold encR3
  refine ⟨by omega, by omega, by omega, by omega, by omega⟩

/-- The immediate encoding fits a word, and its fields are the ones encoded (R61). -/
theorem encImm_fields {op ad v : Nat} (ho : op ≤ 15) (ha : ad ≤ 7) (hv : v < 2 ^ 25) :
    encImm op ad v < 2 ^ 32 ∧ encImm op ad v / 2 ^ 28 = op ∧ encImm op ad v / 2 ^ 25 % 8 = ad ∧
      encImm op ad v % 2 ^ 25 = v := by
  unfold encImm
  refine ⟨by omega, by omega, by omega, by omega⟩

end Sys2Proof
end

