-- ==== Sys2Proof/Laws/Segment.lean ====
section
/-! SUPPORT. One segment: read after write, the canonical form, and the plain list of words it stands for. -/

namespace Sys2Proof.Machine

/-! ### Cells -/

/-- An offset below every listed one reads 0. -/
theorem cellAt_of_lt {o : Nat} {cs : List (Nat × Word)} (h : ∀ p ∈ cs, o < p.1) : cellAt cs o = 0 := by
  induction cs with
  | nil => rfl
  | cons p cs ih =>
    have hp := h p (by simp)
    simp only [cellAt, if_neg (by omega : ¬p.1 = o)]
    exact ih fun q hq => h q (by simp [hq])

/-- What the front cell reads, where nothing behind it has its offset. -/
theorem cellAt_consCell {cs : List (Nat × Word)} {o : Nat} (h : cellAt cs o = 0) (v : Word) (o' : Nat) :
    cellAt (consCell o v cs) o' = if o' = o then v else cellAt cs o' := by
  unfold consCell
  split
  · next hv =>
    split
    · next ho => rw [ho, h, hv]
    · rfl
  · simp only [cellAt, eq_comm]

theorem mem_consCell {cs : List (Nat × Word)} {o : Nat} {v : Word} {p : Nat × Word} :
    p ∈ consCell o v cs ↔ (p = (o, v) ∧ v ≠ 0) ∨ p ∈ cs := by
  unfold consCell
  split
  · next hv => simp only [ne_eq, hv, not_true_eq_false, and_false, false_or]
  · next hv => simp only [List.mem_cons, ne_eq, hv, not_false_eq_true, and_true]

theorem consCell_pairwise {cs : List (Nat × Word)} (hs : cs.Pairwise (fun p q => p.1 < q.1)) {o : Nat}
    (h : ∀ p ∈ cs, o < p.1) (v : Word) : (consCell o v cs).Pairwise (fun p q => p.1 < q.1) := by
  unfold consCell
  split
  · exact hs
  · exact List.pairwise_cons.2 ⟨h, hs⟩

/-- Read after write within rising cells. -/
theorem cellAt_putCell {cs : List (Nat × Word)} (hs : cs.Pairwise (fun p q => p.1 < q.1)) (o : Nat) (v : Word)
    (o' : Nat) : cellAt (putCell cs o v) o' = if o' = o then v else cellAt cs o' := by
  induction cs with
  | nil => exact cellAt_consCell (cs := []) rfl v o'
  | cons p cs ih =>
    obtain ⟨a, w⟩ := p
    rw [List.pairwise_cons] at hs
    have low : ∀ x ≤ a, cellAt cs x = 0 := fun x hx =>
      cellAt_of_lt fun q hq => Nat.lt_of_le_of_lt hx (hs.1 q hq)
    simp only [putCell]
    split
    · next hlt =>
      simp only [cellAt, ih hs.2]
      split
      · next h1 => rw [if_neg (by omega)]
      · rfl
    · split
      · next hge heq =>
        subst heq
        rw [cellAt_consCell (low _ (Nat.le_refl _))]
        split
        · rfl
        · next h1 => simp only [cellAt, if_neg (Ne.symm h1)]
      · next hge hne =>
        have h0 : cellAt ((a, w) :: cs) o = 0 := by
          simp only [cellAt, if_neg hne]; exact low o (by omega)
        rw [cellAt_consCell h0]

/-- Writing brings no offset into the list but its own. -/
theorem mem_putCell {cs : List (Nat × Word)} {o : Nat} {v : Word} {p : Nat × Word} (h : p ∈ putCell cs o v) :
    (p = (o, v) ∧ v ≠ 0) ∨ p ∈ cs := by
  induction cs with
  | nil => exact mem_consCell.1 h
  | cons q cs ih =>
    obtain ⟨a, w⟩ := q
    simp only [putCell] at h
    split at h
    · rcases List.mem_cons.1 h with h | h
      · exact .inr (by simp [h])
      · exact (ih h).imp id fun h => by simp [h]
    · split at h
      · exact (mem_consCell.1 h).imp id fun h => by simp [h]
      · exact mem_consCell.1 h

/-- Writing keeps the offsets rising. -/
theorem putCell_pairwise {cs : List (Nat × Word)} (hs : cs.Pairwise (fun p q => p.1 < q.1)) (o : Nat) (v : Word) :
    (putCell cs o v).Pairwise (fun p q => p.1 < q.1) := by
  induction cs with
  | nil => exact consCell_pairwise .nil (by simp) v
  | cons p cs ih =>
    obtain ⟨a, w⟩ := p
    have hs' := hs
    rw [List.pairwise_cons] at hs
    simp only [putCell]
    split
    · next hlt =>
      refine List.pairwise_cons.2 ⟨fun q hq => ?_, ih hs.2⟩
      rcases mem_putCell hq with ⟨rfl, -⟩ | hq
      · exact hlt
      · exact hs.1 q hq
    · split
      · next hge heq => exact consCell_pairwise hs.2 (fun q hq => by simpa [heq] using hs.1 q hq) v
      · next hge hne =>
        refine consCell_pairwise hs' (fun q hq => ?_) v
        rcases List.mem_cons.1 hq with rfl | hq
        · simp only; omega
        · have := hs.1 q hq; simp only at this ⊢; omega

/-- Rising, zero-free cells are determined by what they read. -/
theorem cells_ext {cs ds : List (Nat × Word)} (hc : cs.Pairwise (fun p q => p.1 < q.1))
    (hd : ds.Pairwise (fun p q => p.1 < q.1)) (zc : ∀ p ∈ cs, p.2 ≠ 0) (zd : ∀ p ∈ ds, p.2 ≠ 0)
    (h : ∀ o, cellAt cs o = cellAt ds o) : cs = ds := by
  induction cs generalizing ds with
  | nil =>
    cases ds with
    | nil => rfl
    | cons q ds => exact absurd (by simpa [cellAt] using (h q.1).symm) (zd q (by simp))
  | cons p cs ih =>
    obtain ⟨a, w⟩ := p
    cases ds with
    | nil => exact absurd (by simpa [cellAt] using h a) (zc (a, w) (by simp))
    | cons q ds =>
      obtain ⟨b, x⟩ := q
      rw [List.pairwise_cons] at hc hd
      have low : ∀ {l : List (Nat × Word)} {y : Nat}, (∀ r ∈ l, y < r.1) → ∀ z, z ≤ y → cellAt l z = 0 :=
        fun hl z hz => cellAt_of_lt fun r hr => by have := hl r hr; omega
      have hab : a = b := by
        rcases Nat.lt_trichotomy a b with hlt | heq | hgt
        · have h1 := h a
          simp only [cellAt, if_true, if_neg (by omega : ¬b = a), low hd.1 a (by simp only; omega)] at h1
          exact absurd h1 (zc (a, w) (by simp))
        · exact heq
        · have h1 := h b
          simp only [cellAt, if_true, if_neg (by omega : ¬a = b), low hc.1 b (by simp only; omega)] at h1
          exact absurd h1.symm (zd (b, x) (by simp))
      subst hab
      have hw : w = x := by simpa [cellAt] using h a
      subst hw
      rw [ih hc.2 hd.2 (fun p hp => zc p (by simp [hp])) (fun p hp => zd p (by simp [hp]))]
      intro o
      by_cases ho : a = o
      · subst ho; rw [low hc.1 a (by simp), low hd.1 a (by simp)]
      · simpa [cellAt, ho] using h o

/-! ### Segments -/

@[simp] theorem Segment.len_set (g : Segment) (o : Nat) (v : Word) : (g.set o v).len = g.len := rfl

@[simp] theorem Segment.len_zeros (n : Nat) : (Segment.zeros n).len = n := rfl

@[simp] theorem Segment.get_zeros (n o : Nat) : (Segment.zeros n).get o = 0 := rfl

/-- A new segment is in canonical form. -/
theorem Segment.wf_zeros (n : Nat) : (Segment.zeros n).wf := by simp [Segment.wf, Segment.zeros]

/-- Read after write in one segment (R36, R37). -/
theorem Segment.get_set {g : Segment} (hg : g.wf) (o : Nat) (v : Word) (o' : Nat) :
    (g.set o v).get o' = if o' = o then v else g.get o' :=
  cellAt_putCell hg.1 o v o'

/-- A write inside the segment keeps the canonical form. -/
theorem Segment.wf_set {g : Segment} (hg : g.wf) {o : Nat} (ho : o < g.len) (v : Word) : (g.set o v).wf :=
  ⟨putCell_pairwise hg.1 o v, fun p hp => by
    rcases mem_putCell hp with ⟨rfl, hv⟩ | hp
    · exact ⟨ho, hv⟩
    · exact hg.2 p hp⟩

/-- Past its length a canonical segment reads 0. -/
theorem Segment.get_of_len_le {g : Segment} (hg : g.wf) {o : Nat} (ho : g.len ≤ o) : g.get o = 0 := by
  have key : ∀ cs : List (Nat × Word), (∀ p ∈ cs, p.1 < o) → cellAt cs o = 0 := by
    intro cs
    induction cs with
    | nil => intro _; rfl
    | cons p cs ih =>
      intro h
      have := h p (by simp)
      simp only [cellAt, if_neg (by omega : ¬p.1 = o)]
      exact ih fun q hq => h q (by simp [hq])
  exact key g.cells fun p hp => by have := (hg.2 p hp).1; omega

/-- Canonical segments of one length that read alike are one segment. -/
theorem Segment.ext_get {g k : Segment} (hg : g.wf) (hk : k.wf) (hl : g.len = k.len)
    (h : ∀ o < g.len, g.get o = k.get o) : g = k := by
  have hc : g.cells = k.cells := cells_ext hg.1 hk.1 (fun p hp => (hg.2 p hp).2) (fun p hp => (hk.2 p hp).2)
    fun o => by
      by_cases ho : o < g.len
      · exact h o ho
      · exact (Segment.get_of_len_le hg (by omega)).trans (Segment.get_of_len_le hk (by omega)).symm
  cases g; cases k; simp_all

/-- The listed words of a program lie at the offsets from `k` on, rising, none 0. -/
theorem cellsFrom_spec (k : Nat) (ws : List Word) :
    (cellsFrom k ws).Pairwise (fun p q => p.1 < q.1) ∧
    (∀ p ∈ cellsFrom k ws, k ≤ p.1 ∧ p.1 < k + ws.length ∧ p.2 ≠ 0) ∧
    ∀ i, cellAt (cellsFrom k ws) (k + i) = ws[i]?.getD 0 := by
  induction ws generalizing k with
  | nil => simp [cellsFrom, cellAt]
  | cons w ws ih =>
    obtain ⟨h1, h2, h3⟩ := ih (k + 1)
    have hk : cellAt (cellsFrom (k + 1) ws) k = 0 := cellAt_of_lt fun p hp => by have := (h2 p hp).1; omega
    simp only [cellsFrom, List.length_cons]
    refine ⟨consCell_pairwise h1 (fun p hp => by have := (h2 p hp).1; omega) w, fun p hp => ?_, fun i => ?_⟩
    · rcases mem_consCell.1 hp with ⟨rfl, hw⟩ | hp
      · exact ⟨by simp, by simp, hw⟩
      · have := h2 p hp; exact ⟨by omega, by omega, this.2.2⟩
    · rw [cellAt_consCell hk]
      cases i with
      | zero => simp
      | succ i => rw [if_neg (by omega), show k + (i + 1) = k + 1 + i by omega, h3 i]; simp

@[simp] theorem Segment.len_ofWords (ws : List Word) : (Segment.ofWords ws).len = ws.length := rfl

/-- A loaded program is a canonical segment. -/
theorem Segment.wf_ofWords (ws : List Word) : (Segment.ofWords ws).wf :=
  ⟨(cellsFrom_spec 0 ws).1, fun p hp => by
    obtain ⟨-, h, h'⟩ := (cellsFrom_spec 0 ws).2.1 p hp
    exact ⟨by simpa using h, h'⟩⟩

/-- A loaded program reads its own words. -/
theorem Segment.get_ofWords (ws : List Word) (o : Nat) : (Segment.ofWords ws).get o = ws[o]?.getD 0 := by
  have h := (cellsFrom_spec 0 ws).2.2 o
  rwa [Nat.zero_add] at h

/-! ### The words of a segment -/

@[simp] theorem Segment.length_words (g : Segment) : g.words.length = g.len := by simp [Segment.words]

theorem Segment.getElem?_words (g : Segment) (o : Nat) :
    g.words[o]? = if o < g.len then some (g.get o) else none := by
  by_cases h : o < g.len <;> simp [Segment.words, h]

/-- A segment that reads like a list of its length stands for that list. -/
theorem Segment.words_eq {g : Segment} {ws : List Word} (hl : g.len = ws.length)
    (h : ∀ o < g.len, ws[o]? = some (g.get o)) : g.words = ws := by
  apply List.ext_getElem?
  intro o
  rw [Segment.getElem?_words]
  split
  · next ho => exact (h o ho).symm
  · next ho => exact (List.getElem?_eq_none (by omega)).symm

@[simp] theorem Segment.words_zeros (n : Nat) : (Segment.zeros n).words = List.replicate n 0 :=
  Segment.words_eq (by simp) fun o ho => by simpa [List.getElem?_replicate] using ho

@[simp] theorem Segment.words_ofWords (ws : List Word) : (Segment.ofWords ws).words = ws :=
  Segment.words_eq rfl fun o ho => by
    have ho : o < ws.length := ho
    simp [Segment.get_ofWords, ho]

/-- A write to a segment is a write to its words. -/
theorem Segment.words_set {g : Segment} (hg : g.wf) (o : Nat) (v : Word) :
    (g.set o v).words = g.words.set o v := by
  apply List.ext_getElem? ; intro i
  simp only [Segment.getElem?_words, Segment.get_set hg, List.getElem?_set, Segment.length_words, Segment.len_set]
  by_cases h : i < g.len <;> by_cases h2 : o = i <;> simp_all [eq_comm]

end Sys2Proof.Machine
end

