-- ==== Sys2Proof/Laws/Memory.lean ====
section
/-! SUPPORT. The Segment Store: what each of its operations can answer, and that each keeps the canonical form and
the invariant of rule R18. -/

namespace Sys2Proof.Machine

/-! ### Slots -/

theorem Memory.segment_eq (m : Memory) (h : Nat) : m.segment h = (m.slots[h]?).getD (Segment.zeros 0) := rfl

theorem Memory.segment_mem {m : Memory} {h : Nat} (hh : h < m.count) : m.segment h ∈ m.slots := by
  unfold Memory.count at hh
  simp only [Memory.segment, List.getElem?_eq_getElem hh, Option.getD_some]
  exact List.getElem_mem hh

/-- Every segment of a canonical store is canonical, absent ones included. -/
theorem Memory.segment_wf {m : Memory} (hm : m.wf) (h : Nat) : (m.segment h).wf := by
  by_cases hh : h < m.count
  · exact hm _ (m.segment_mem hh)
  · unfold Memory.count at hh
    rw [Memory.segment, List.getElem?_eq_none (by omega)]
    exact Segment.wf_zeros 0

theorem Memory.mapped_iff {m : Memory} {h : Nat} : m.mapped h = true ↔ h < m.count ∧ h ∉ m.free := by
  simp [Memory.mapped]

theorem Memory.valid_iff {m : Memory} {h o : Nat} :
    m.valid h o = true ↔ (h < m.count ∧ h ∉ m.free) ∧ o < m.len h := by
  simp [Memory.valid, Memory.mapped_iff]

/-- The segments of a store whose slot `h` was replaced. -/
theorem Memory.segment_set {m : Memory} {h : Nat} (hh : h < m.count) (free : List Nat) (g : Segment) (k : Nat) :
    Memory.segment ⟨m.slots.set h g, free⟩ k = if k = h then g else m.segment k := by
  have hh : h < m.slots.length := hh
  simp only [Memory.segment, List.getElem?_set]
  by_cases hk : h = k
  · subst hk; simp [hh]
  · simp [hk, Ne.symm hk]

/-- The segments of a store with one slot more. -/
theorem Memory.segment_append (m : Memory) (free : List Nat) (g : Segment) (k : Nat) :
    Memory.segment ⟨m.slots ++ [g], free⟩ k = if k = m.count then g else m.segment k := by
  rcases Nat.lt_trichotomy k m.count with h | h | h
  · have h' : k < m.slots.length := h
    rw [if_neg (Nat.ne_of_lt h)]
    simp only [Memory.segment, List.getElem?_append, if_pos h']
  · have h' : k = m.slots.length := h
    rw [if_pos h]
    simp only [Memory.segment, h', List.getElem?_concat_length, Option.getD_some]
  · have h' : m.slots.length < k := h
    rw [if_neg (by omega)]
    simp only [Memory.segment]
    have h2 : m.slots.length ≤ k := by omega
    have h3 : (m.slots ++ [g]).length ≤ k := by simpa using h'
    rw [List.getElem?_eq_none h2, List.getElem?_eq_none h3]

/-- Validity depends on the handle being mapped and on the length only (R33). -/
theorem Memory.valid_congr {m m' : Memory} {h h' : Nat} (hm : m.mapped h = m'.mapped h') (hl : m.len h = m'.len h')
    (o : Nat) : m.valid h o = m'.valid h' o := by
  simp only [Memory.valid, hm, hl]

/-- Addresses that are valid alike and hold the same word read alike. -/
theorem Memory.read_congr {m m' : Memory} {h h' o o' : Nat} (hv : m.valid h o = m'.valid h' o')
    (hs : (m.segment h).get o = (m'.segment h').get o') : m.read h o = m'.read h' o' := by
  simp [Memory.read, hv, hs]

@[simp] theorem Memory.count_setSlot (m : Memory) (h : Nat) (g : Segment) : (m.setSlot h g).count = m.count := by
  simp [Memory.count, Memory.setSlot]

@[simp] theorem Memory.free_setSlot (m : Memory) (h : Nat) (g : Segment) : (m.setSlot h g).free = m.free := rfl

theorem Memory.segment_setSlot {m : Memory} {h : Nat} (hh : h < m.count) (g : Segment) (k : Nat) :
    (m.setSlot h g).segment k = if k = h then g else m.segment k :=
  Memory.segment_set hh m.free g k

@[simp] theorem Memory.mapped_setSlot (m : Memory) (h : Nat) (g : Segment) (k : Nat) :
    (m.setSlot h g).mapped k = m.mapped k := by
  simp [Memory.mapped]

/-! ### What each operation answers -/

theorem Memory.read_eq_ok {m : Memory} {h o : Nat} {v : Word} :
    m.read h o = .ok v ↔ m.valid h o = true ∧ (m.segment h).get o = v := by
  unfold Memory.read
  split <;> simp_all

theorem Memory.read_eq_error {m : Memory} {h o : Nat} {k : FaultKind} :
    m.read h o = .error k ↔ m.valid h o = false ∧ .outOfBoundsAccess = k := by
  unfold Memory.read
  split <;> simp_all

theorem Memory.write_eq_ok {m m' : Memory} {h o : Nat} {v : Word} :
    m.write h o v = .ok m' ↔ m.valid h o = true ∧ m.setSlot h ((m.segment h).set o v) = m' := by
  unfold Memory.write
  split <;> simp_all

theorem Memory.write_eq_error {m : Memory} {h o : Nat} {v : Word} {k : FaultKind} :
    m.write h o v = .error k ↔ m.valid h o = false ∧ .outOfBoundsAccess = k := by
  unfold Memory.write
  split <;> simp_all

theorem Memory.fetch_eq_ok {m : Memory} {pc w : Word} :
    m.fetch pc = .ok w ↔ pc.toNat < m.len 0 ∧ (m.segment 0).get pc.toNat = w := by
  unfold Memory.fetch
  split
  · simp; omega
  · simp; omega

theorem Memory.fetch_eq_error {m : Memory} {pc : Word} {k : FaultKind} :
    m.fetch pc = .error k ↔ m.len 0 ≤ pc.toNat ∧ .outOfBoundsFetch = k := by
  unfold Memory.fetch
  split <;> simp_all

theorem Memory.dealloc_eq_ok {m m' : Memory} {h : Nat} :
    m.dealloc h = .ok m' ↔
      (h ≠ 0 ∧ h < m.count ∧ h ∉ m.free) ∧ ⟨m.slots.set h (Segment.zeros 0), h :: m.free⟩ = m' := by
  unfold Memory.dealloc
  split
  · next hc => simp only [reduceCtorEq, false_iff]; rintro ⟨⟨h1, h2, h3⟩, -⟩; exact hc.elim h1 (Or.elim · (by omega) h3)
  · next hc =>
    simp only [not_or, Nat.not_le] at hc
    simp only [Except.ok.injEq]
    exact ⟨fun h => ⟨hc, h⟩, fun h => h.2⟩

theorem Memory.dealloc_eq_error {m : Memory} {h : Nat} {k : FaultKind} :
    m.dealloc h = .error k ↔ (h = 0 ∨ m.count ≤ h ∨ h ∈ m.free) ∧ .invalidSegmentOp = k := by
  unfold Memory.dealloc
  split <;> simp_all

theorem Memory.alloc_eq_ok {m m' : Memory} {cfg : Config} {n h : Nat} :
    m.alloc cfg n = .ok (h, m') ↔
      exceedsWords cfg m.total n = false ∧
      ((∃ rest, m.free = h :: rest ∧ ⟨m.slots.set h (Segment.zeros n), rest⟩ = m') ∨
       (m.free = [] ∧ m.count ≠ cfg.maxHandles ∧ m.count = h ∧ ⟨m.slots ++ [Segment.zeros n], m.free⟩ = m')) := by
  obtain ⟨slots, free⟩ := m
  unfold Memory.alloc
  cases free with
  | nil =>
    by_cases h1 : Memory.count ⟨slots, []⟩ = cfg.maxHandles
    · simp [h1]
    · by_cases h2 : exceedsWords cfg (Memory.total ⟨slots, []⟩) n = true <;> simp [h1, h2]
  | cons f rest =>
    by_cases h2 : exceedsWords cfg (Memory.total ⟨slots, f :: rest⟩) n = true
    · simp [h2]
    · simp only [h2, reduceCtorEq, false_and, if_false, Bool.false_eq_true, Except.ok.injEq, Prod.mk.injEq,
        List.cons.injEq, or_false, true_and]
      constructor
      · rintro ⟨rfl, rfl⟩; exact ⟨rest, ⟨rfl, rfl⟩, rfl⟩
      · rintro ⟨r, ⟨rfl, rfl⟩, rfl⟩; exact ⟨rfl, rfl⟩

theorem Memory.alloc_eq_error {m : Memory} {cfg : Config} {n : Nat} {k : FaultKind} :
    m.alloc cfg n = .error k ↔
      ((m.free = [] ∧ m.count = cfg.maxHandles) ∨ exceedsWords cfg m.total n = true) ∧ .resourceExhausted = k := by
  obtain ⟨slots, free⟩ := m
  unfold Memory.alloc
  cases free with
  | nil =>
    by_cases h1 : Memory.count ⟨slots, []⟩ = cfg.maxHandles
    · simp [h1]
    · by_cases h2 : exceedsWords cfg (Memory.total ⟨slots, []⟩) n = true <;> simp [h1, h2]
  | cons f rest =>
    by_cases h2 : exceedsWords cfg (Memory.total ⟨slots, f :: rest⟩) n = true <;> simp [h2]

theorem Memory.dupIntoZero_eq_ok {m m' : Memory} {cfg : Config} {h : Nat} :
    m.dupIntoZero cfg h = .ok m' ↔
      (h = 0 ∧ m = m') ∨
      (h ≠ 0 ∧ m.mapped h = true ∧ exceedsWords cfg (m.total - m.len 0) (m.len h) = false ∧
        m.setSlot 0 (m.segment h) = m') := by
  unfold Memory.dupIntoZero
  by_cases h1 : h = 0
  · simp [h1]
  · by_cases h2 : m.mapped h = true
    · by_cases h3 : exceedsWords cfg (m.total - m.len 0) (m.len h) = true <;> simp [h1, h2, h3]
    · simp [h1, h2]

theorem Memory.dupIntoZero_eq_error {m : Memory} {cfg : Config} {h : Nat} {k : FaultKind} :
    m.dupIntoZero cfg h = .error k ↔
      h ≠ 0 ∧ ((m.mapped h = false ∧ .outOfBoundsAccess = k) ∨
        (m.mapped h = true ∧ exceedsWords cfg (m.total - m.len 0) (m.len h) = true ∧ .resourceExhausted = k)) := by
  unfold Memory.dupIntoZero
  by_cases h1 : h = 0
  · simp [h1]
  · by_cases h2 : m.mapped h = true
    · by_cases h3 : exceedsWords cfg (m.total - m.len 0) (m.len h) = true <;> simp [h1, h2, h3]
    · simp [h1, h2]

/-! ### What a reader sees after each operation -/

/-- A write is read back at its address and nowhere else; no length changes (R37). -/
theorem Memory.read_write {m m' : Memory} (hm : m.wf) {h o : Nat} {v : Word} (hw : m.write h o v = .ok m')
    (h' o' : Nat) :
    m'.read h' o' = (if h' = h ∧ o' = o then .ok v else m.read h' o') ∧ m'.len h' = m.len h' := by
  obtain ⟨hv, rfl⟩ := Memory.write_eq_ok.1 hw
  have hseg := Memory.segment_setSlot (Memory.valid_iff.1 hv).1.1 ((m.segment h).set o v)
  have hlen : ∀ k, (m.setSlot h ((m.segment h).set o v)).len k = m.len k := fun k => by
    simp only [Memory.len, hseg]
    split
    · next e => rw [e, Segment.len_set]
    · rfl
  have hval : ∀ k x, (m.setSlot h ((m.segment h).set o v)).valid k x = m.valid k x := fun k x =>
    Memory.valid_congr (by simp) (hlen k) x
  refine ⟨?_, hlen h'⟩
  split
  · next e =>
    rw [e.1, e.2, Memory.read_eq_ok, hval, hseg, if_pos rfl, Segment.get_set (m.segment_wf hm h), if_pos rfl]
    exact ⟨hv, rfl⟩
  · next e =>
    refine Memory.read_congr (hval _ _) ?_
    rw [hseg]
    split
    · next e1 => rw [e1, Segment.get_set (m.segment_wf hm h), if_neg fun e2 => e ⟨e1, e2⟩]
    · rfl

/-- After a copy segment 0 reads as the source, and every other segment as before (R38). -/
theorem Memory.read_dupIntoZero {m m' : Memory} (h0 : m.mapped 0 = true) {cfg : Config} {h : Nat}
    (hd : m.dupIntoZero cfg h = .ok m') :
    (∀ o, m'.read 0 o = m.read h o) ∧ m'.len 0 = m.len h ∧
    ∀ k, k ≠ 0 → (∀ o, m'.read k o = m.read k o) ∧ m'.len k = m.len k := by
  obtain ⟨rfl, rfl⟩ | ⟨-, hmp, -, rfl⟩ := Memory.dupIntoZero_eq_ok.1 hd
  · exact ⟨fun _ => rfl, rfl, fun _ _ => ⟨fun _ => rfl, rfl⟩⟩
  · have hseg := Memory.segment_setSlot (Memory.mapped_iff.1 h0).1 (m.segment h)
    have hlen : (m.setSlot 0 (m.segment h)).len 0 = m.len h := by simp [Memory.len, hseg]
    refine ⟨fun o => Memory.read_congr (Memory.valid_congr (by simp [h0, hmp]) hlen o) (by simp [hseg]), hlen,
      fun k hk => ?_⟩
    have hk' : (m.setSlot 0 (m.segment h)).len k = m.len k := by simp [Memory.len, hseg, hk]
    exact ⟨fun o => Memory.read_congr (Memory.valid_congr (by simp) hk' o) (by simp [hseg, hk]), hk'⟩

/-- A freed handle has no word, and every other segment reads as before (R35). -/
theorem Memory.read_dealloc {m m' : Memory} {h : Nat} (hd : m.dealloc h = .ok m') :
    (∀ o, m'.read h o = .error .outOfBoundsAccess) ∧
    ∀ k, k ≠ h → (∀ o, m'.read k o = m.read k o) ∧ m'.len k = m.len k := by
  obtain ⟨⟨-, hlt, -⟩, rfl⟩ := Memory.dealloc_eq_ok.1 hd
  have hseg := Memory.segment_set hlt (h :: m.free) (Segment.zeros 0)
  refine ⟨fun o => Memory.read_eq_error.2 ⟨?_, rfl⟩, fun k hk => ?_⟩
  · rw [← Bool.not_eq_true, Memory.valid_iff]; simp
  · have hmp : Memory.mapped ⟨m.slots.set h (Segment.zeros 0), h :: m.free⟩ k = m.mapped k := by
      rw [Bool.eq_iff_iff, Memory.mapped_iff, Memory.mapped_iff]; simp [Memory.count, hk]
    have hlen : Memory.len ⟨m.slots.set h (Segment.zeros 0), h :: m.free⟩ k = m.len k := by
      simp [Memory.len, hseg, hk]
    exact ⟨fun o => Memory.read_congr (Memory.valid_congr hmp hlen o) (by simp [hseg, hk]), hlen⟩

/-- A new handle has the length asked for and reads 0 everywhere in it; every other segment reads as before (R34). -/
theorem Memory.read_alloc {m m' : Memory} {cfg : Config} (hi : m.StoreInv cfg) {n h : Nat}
    (ha : m.alloc cfg n = .ok (h, m')) :
    m'.mapped h = true ∧ m'.len h = n ∧ (∀ o, o < n → m'.read h o = .ok 0) ∧
    ∀ k, k ≠ h → (∀ o, m'.read k o = m.read k o) ∧ m'.len k = m.len k := by
  have key : ∀ m' : Memory, (∀ k, m'.segment k = if k = h then Segment.zeros n else m.segment k) →
      m'.mapped h = true → (∀ k, k ≠ h → m'.mapped k = m.mapped k) →
      m'.mapped h = true ∧ m'.len h = n ∧ (∀ o, o < n → m'.read h o = .ok 0) ∧
      ∀ k, k ≠ h → (∀ o, m'.read k o = m.read k o) ∧ m'.len k = m.len k := by
    intro m' hseg hmp hother
    have hlen : m'.len h = n := by simp [Memory.len, hseg]
    refine ⟨hmp, hlen, fun o ho => Memory.read_eq_ok.2 ⟨?_, by simp [hseg]⟩, fun k hk => ?_⟩
    · rw [Memory.valid_iff, ← Memory.mapped_iff, hlen]; exact ⟨hmp, ho⟩
    · have hl : m'.len k = m.len k := by simp [Memory.len, hseg, hk]
      exact ⟨fun o => Memory.read_congr (Memory.valid_congr (hother k hk) hl o) (by simp [hseg, hk]), hl⟩
  obtain ⟨-, h2, h3, h4, -, -, -⟩ := hi
  obtain ⟨-, ⟨rest, hf, rfl⟩ | ⟨hf, -, rfl, rfl⟩⟩ := Memory.alloc_eq_ok.1 ha
  · rw [hf] at h3 h4
    have hlt := h4 h (by simp)
    refine key _ (Memory.segment_set hlt rest _) ?_ fun k hk => ?_
    · rw [Memory.mapped_iff]; simpa [Memory.count, (List.nodup_cons.1 h3).1] using hlt
    · rw [Bool.eq_iff_iff, Memory.mapped_iff, Memory.mapped_iff]; simp [Memory.count, hf, hk]
  · refine key _ (Memory.segment_append m m.free _) ?_ fun k hk => ?_
    · rw [Memory.mapped_iff]; simp [Memory.count, hf]
    · rw [Bool.eq_iff_iff, Memory.mapped_iff, Memory.mapped_iff]
      simp only [Memory.count, List.length_append, List.length_singleton] at hk ⊢
      constructor <;> rintro ⟨a, b⟩ <;> exact ⟨by omega, b⟩

/-! ### The canonical form is kept -/

theorem Memory.wf_set {slots : List Segment} {free : List Nat} (hm : Memory.wf ⟨slots, free⟩) (h : Nat)
    {g : Segment} (hg : g.wf) (free' : List Nat) : Memory.wf ⟨slots.set h g, free'⟩ := by
  intro k hk
  rcases List.mem_or_eq_of_mem_set hk with hk | rfl
  · exact hm k hk
  · exact hg

theorem Memory.write_wf {m m' : Memory} (hm : m.wf) {h o : Nat} {v : Word} (hw : m.write h o v = .ok m') :
    m'.wf := by
  obtain ⟨hv, rfl⟩ := Memory.write_eq_ok.1 hw
  exact Memory.wf_set hm h (Segment.wf_set (m.segment_wf hm h) (Memory.valid_iff.1 hv).2 v) m.free

theorem Memory.alloc_wf {m m' : Memory} (hm : m.wf) {cfg : Config} {n h : Nat}
    (ha : m.alloc cfg n = .ok (h, m')) : m'.wf := by
  obtain ⟨-, ⟨rest, -, rfl⟩ | ⟨-, -, -, rfl⟩⟩ := Memory.alloc_eq_ok.1 ha
  · exact Memory.wf_set hm h (Segment.wf_zeros n) rest
  · intro g hg
    rcases List.mem_append.1 hg with hg | hg
    · exact hm g hg
    · rw [List.mem_singleton.1 hg]; exact Segment.wf_zeros n

theorem Memory.dealloc_wf {m m' : Memory} (hm : m.wf) {h : Nat} (hd : m.dealloc h = .ok m') : m'.wf := by
  obtain ⟨-, rfl⟩ := Memory.dealloc_eq_ok.1 hd
  exact Memory.wf_set hm h (Segment.wf_zeros 0) _

theorem Memory.dupIntoZero_wf {m m' : Memory} (hm : m.wf) {cfg : Config} {h : Nat}
    (hd : m.dupIntoZero cfg h = .ok m') : m'.wf := by
  obtain ⟨-, rfl⟩ | ⟨-, -, -, rfl⟩ := Memory.dupIntoZero_eq_ok.1 hd
  · exact hm
  · exact Memory.wf_set hm 0 (m.segment_wf hm h) m.free

/-! ### The invariant of R18 is kept -/

theorem Memory.StoreInv.setSlot {m : Memory} {cfg : Config} (hi : m.StoreInv cfg) {h : Nat} (hh : h ∉ m.free)
    {g : Segment} (hg : g.len < 2 ^ 32) : (m.setSlot h g).StoreInv cfg := by
  obtain ⟨h1, h2, h3, h4, h5, h6, h7⟩ := hi
  refine ⟨by simpa using h1, h2, h3, by simpa using h4, fun k hk => ?_, fun k hk => ?_, by simpa using h7⟩
  · have hne : h ≠ k := fun e => hh (e ▸ hk)
    rw [← h5 k hk]
    simp [Memory.segment, Memory.setSlot, hne]
  · rcases List.mem_or_eq_of_mem_set hk with hk | rfl
    · exact h6 k hk
    · exact hg

theorem Memory.write_storeInv {m m' : Memory} {cfg : Config} (hi : m.StoreInv cfg) {h o : Nat} {v : Word}
    (hw : m.write h o v = .ok m') : m'.StoreInv cfg := by
  obtain ⟨hv, rfl⟩ := Memory.write_eq_ok.1 hw
  have hv := (Memory.valid_iff.1 hv).1
  have hl : (m.segment h).len < 2 ^ 32 := hi.2.2.2.2.2.1 _ (m.segment_mem hv.1)
  exact hi.setSlot hv.2 ((Segment.len_set _ o v).trans_lt hl)

theorem Memory.dupIntoZero_storeInv {m m' : Memory} {cfg : Config} (hi : m.StoreInv cfg) {h : Nat}
    (hd : m.dupIntoZero cfg h = .ok m') : m'.StoreInv cfg := by
  obtain ⟨-, rfl⟩ | ⟨-, hm, -, rfl⟩ := Memory.dupIntoZero_eq_ok.1 hd
  · exact hi
  · exact hi.setSlot hi.2.1 (hi.2.2.2.2.2.1 _ (m.segment_mem (Memory.mapped_iff.1 hm).1))

theorem Memory.dealloc_storeInv {m m' : Memory} {cfg : Config} (hi : m.StoreInv cfg) {h : Nat}
    (hd : m.dealloc h = .ok m') : m'.StoreInv cfg := by
  obtain ⟨⟨hne, hlt, hnf⟩, rfl⟩ := Memory.dealloc_eq_ok.1 hd
  obtain ⟨h1, h2, h3, h4, h5, h6, h7⟩ := hi
  refine ⟨by simpa [Memory.count] using h1, by simp [Ne.symm hne, h2], List.nodup_cons.2 ⟨hnf, h3⟩,
    fun k hk => ?_, fun k hk => ?_, fun k hk => ?_, by simpa [Memory.count] using h7⟩
  · rcases List.mem_cons.1 hk with rfl | hk
    · simpa [Memory.count] using hlt
    · simpa [Memory.count] using h4 k hk
  · rw [Memory.segment_set hlt]
    split
    · rfl
    · next hkh =>
      rcases List.mem_cons.1 hk with rfl | hk
      · exact absurd rfl hkh
      · exact h5 k hk
  · rcases List.mem_or_eq_of_mem_set hk with hk | rfl
    · exact h6 k hk
    · simp

theorem Memory.alloc_storeInv {m m' : Memory} {cfg : Config} (hi : m.StoreInv cfg) {n h : Nat} (hn : n < 2 ^ 32)
    (ha : m.alloc cfg n = .ok (h, m')) : m'.StoreInv cfg := by
  obtain ⟨h1, h2, h3, h4, h5, h6, h7⟩ := hi
  obtain ⟨-, ⟨rest, hf, rfl⟩ | ⟨hf, hc, rfl, rfl⟩⟩ := Memory.alloc_eq_ok.1 ha
  · rw [hf] at h2 h3 h4 h5
    obtain ⟨hnd, h3⟩ := List.nodup_cons.1 h3
    refine ⟨by simpa [Memory.count] using h1, fun hz => h2 (List.mem_cons_of_mem _ hz), h3,
      fun k hk => by simpa [Memory.count] using h4 k (List.mem_cons_of_mem _ hk), fun k hk => ?_, fun k hk => ?_,
      by simpa [Memory.count] using h7⟩
    · rw [Memory.segment_set (h4 h (by simp)), if_neg (fun e : k = h => hnd (e ▸ hk))]
      exact h5 k (List.mem_cons_of_mem _ hk)
    · rcases List.mem_or_eq_of_mem_set hk with hk | rfl
      · exact h6 k hk
      · exact hn
  · refine ⟨by simp [Memory.count], h2, h3, fun k hk => ?_, fun k hk => ?_, fun k hk => ?_, ?_⟩
    · have := h4 k hk; simp only [Memory.count, List.length_append, List.length_singleton] at this ⊢; omega
    · rw [hf] at hk; exact absurd hk (by simp)
    · rcases List.mem_append.1 hk with hk | hk
      · exact h6 k hk
      · rw [List.mem_singleton.1 hk]; exact hn
    · simp only [Memory.count, List.length_append, List.length_singleton] at hc h7 ⊢; omega

end Sys2Proof.Machine
end

