-- ==== Sys2Proof/Laws/State.lean ====
section
/-! SUPPORT. One lemma per field per state update, and reading a register after each update. -/

namespace Sys2Proof.Machine

variable (s : State)

@[simp] theorem State.writeReg_regs (i : RegIdx) (v : Word) : (s.writeReg i v).regs = s.regs.set i v := rfl
@[simp] theorem State.writeReg_pc (i : RegIdx) (v : Word) : (s.writeReg i v).pc = s.pc := rfl
@[simp] theorem State.writeReg_status (i : RegIdx) (v : Word) : (s.writeReg i v).status = s.status := rfl
@[simp] theorem State.writeReg_mem (i : RegIdx) (v : Word) : (s.writeReg i v).mem = s.mem := rfl
@[simp] theorem State.writeReg_out (i : RegIdx) (v : Word) : (s.writeReg i v).out = s.out := rfl
@[simp] theorem State.writeReg_inp (i : RegIdx) (v : Word) : (s.writeReg i v).inp = s.inp := rfl
@[simp] theorem State.writeReg_input (i : RegIdx) (v : Word) : (s.writeReg i v).input = s.input := rfl
@[simp] theorem State.writeReg_inputEnd (i : RegIdx) (v : Word) : (s.writeReg i v).inputEnd = s.inputEnd := rfl
@[simp] theorem State.writeReg_cfg (i : RegIdx) (v : Word) : (s.writeReg i v).cfg = s.cfg := rfl

@[simp] theorem State.setMem_regs (m : Memory) : (s.setMem m).regs = s.regs := rfl
@[simp] theorem State.setMem_pc (m : Memory) : (s.setMem m).pc = s.pc := rfl
@[simp] theorem State.setMem_status (m : Memory) : (s.setMem m).status = s.status := rfl
@[simp] theorem State.setMem_mem (m : Memory) : (s.setMem m).mem = m := rfl
@[simp] theorem State.setMem_out (m : Memory) : (s.setMem m).out = s.out := rfl
@[simp] theorem State.setMem_inp (m : Memory) : (s.setMem m).inp = s.inp := rfl
@[simp] theorem State.setMem_input (m : Memory) : (s.setMem m).input = s.input := rfl
@[simp] theorem State.setMem_inputEnd (m : Memory) : (s.setMem m).inputEnd = s.inputEnd := rfl
@[simp] theorem State.setMem_cfg (m : Memory) : (s.setMem m).cfg = s.cfg := rfl

@[simp] theorem State.emit_regs (v : Scalar) : (s.emit v).regs = s.regs := rfl
@[simp] theorem State.emit_pc (v : Scalar) : (s.emit v).pc = s.pc := rfl
@[simp] theorem State.emit_status (v : Scalar) : (s.emit v).status = s.status := rfl
@[simp] theorem State.emit_mem (v : Scalar) : (s.emit v).mem = s.mem := rfl
@[simp] theorem State.emit_out (v : Scalar) : (s.emit v).out = s.out ++ [v] := rfl
@[simp] theorem State.emit_inp (v : Scalar) : (s.emit v).inp = s.inp := rfl
@[simp] theorem State.emit_input (v : Scalar) : (s.emit v).input = s.input := rfl
@[simp] theorem State.emit_inputEnd (v : Scalar) : (s.emit v).inputEnd = s.inputEnd := rfl
@[simp] theorem State.emit_cfg (v : Scalar) : (s.emit v).cfg = s.cfg := rfl

@[simp] theorem State.consume_regs (a : InputAnswer) : (s.consume a).regs = s.regs := rfl
@[simp] theorem State.consume_pc (a : InputAnswer) : (s.consume a).pc = s.pc := rfl
@[simp] theorem State.consume_status (a : InputAnswer) : (s.consume a).status = s.status := rfl
@[simp] theorem State.consume_mem (a : InputAnswer) : (s.consume a).mem = s.mem := rfl
@[simp] theorem State.consume_out (a : InputAnswer) : (s.consume a).out = s.out := rfl
@[simp] theorem State.consume_inp (a : InputAnswer) : (s.consume a).inp = s.inp ++ [a] := rfl
@[simp] theorem State.consume_input (a : InputAnswer) : (s.consume a).input = s.input.tail := rfl
@[simp] theorem State.consume_inputEnd (a : InputAnswer) : (s.consume a).inputEnd = s.inputEnd := rfl
@[simp] theorem State.consume_cfg (a : InputAnswer) : (s.consume a).cfg = s.cfg := rfl

@[simp] theorem State.fault_regs (k : FaultKind) : (s.fault k).regs = s.regs := rfl
@[simp] theorem State.fault_pc (k : FaultKind) : (s.fault k).pc = s.pc := rfl
@[simp] theorem State.fault_status (k : FaultKind) : (s.fault k).status = .faulted k := rfl
@[simp] theorem State.fault_mem (k : FaultKind) : (s.fault k).mem = s.mem := rfl
@[simp] theorem State.fault_out (k : FaultKind) : (s.fault k).out = s.out := rfl
@[simp] theorem State.fault_inp (k : FaultKind) : (s.fault k).inp = s.inp := rfl
@[simp] theorem State.fault_input (k : FaultKind) : (s.fault k).input = s.input := rfl
@[simp] theorem State.fault_inputEnd (k : FaultKind) : (s.fault k).inputEnd = s.inputEnd := rfl
@[simp] theorem State.fault_cfg (k : FaultKind) : (s.fault k).cfg = s.cfg := rfl

@[simp] theorem State.route_advance_regs : (s.route .advance).regs = s.regs := rfl
@[simp] theorem State.route_advance_pc : (s.route .advance).pc = s.pc + 1 := rfl
@[simp] theorem State.route_advance_status : (s.route .advance).status = s.status := rfl
@[simp] theorem State.route_advance_mem : (s.route .advance).mem = s.mem := rfl
@[simp] theorem State.route_advance_out : (s.route .advance).out = s.out := rfl
@[simp] theorem State.route_advance_inp : (s.route .advance).inp = s.inp := rfl
@[simp] theorem State.route_advance_input : (s.route .advance).input = s.input := rfl
@[simp] theorem State.route_advance_inputEnd : (s.route .advance).inputEnd = s.inputEnd := rfl
@[simp] theorem State.route_advance_cfg : (s.route .advance).cfg = s.cfg := rfl

@[simp] theorem State.route_jump_regs (t : Word) : (s.route (.jump t)).regs = s.regs := rfl
@[simp] theorem State.route_jump_pc (t : Word) : (s.route (.jump t)).pc = t := rfl
@[simp] theorem State.route_jump_status (t : Word) : (s.route (.jump t)).status = s.status := rfl
@[simp] theorem State.route_jump_mem (t : Word) : (s.route (.jump t)).mem = s.mem := rfl
@[simp] theorem State.route_jump_out (t : Word) : (s.route (.jump t)).out = s.out := rfl
@[simp] theorem State.route_jump_inp (t : Word) : (s.route (.jump t)).inp = s.inp := rfl
@[simp] theorem State.route_jump_input (t : Word) : (s.route (.jump t)).input = s.input := rfl
@[simp] theorem State.route_jump_inputEnd (t : Word) : (s.route (.jump t)).inputEnd = s.inputEnd := rfl
@[simp] theorem State.route_jump_cfg (t : Word) : (s.route (.jump t)).cfg = s.cfg := rfl

@[simp] theorem State.route_terminate_regs : (s.route .terminate).regs = s.regs := rfl
@[simp] theorem State.route_terminate_pc : (s.route .terminate).pc = s.pc := rfl
@[simp] theorem State.route_terminate_status : (s.route .terminate).status = .halted := rfl
@[simp] theorem State.route_terminate_mem : (s.route .terminate).mem = s.mem := rfl
@[simp] theorem State.route_terminate_out : (s.route .terminate).out = s.out := rfl
@[simp] theorem State.route_terminate_inp : (s.route .terminate).inp = s.inp := rfl
@[simp] theorem State.route_terminate_input : (s.route .terminate).input = s.input := rfl
@[simp] theorem State.route_terminate_inputEnd : (s.route .terminate).inputEnd = s.inputEnd := rfl
@[simp] theorem State.route_terminate_cfg : (s.route .terminate).cfg = s.cfg := rfl

@[simp] theorem State.deliver_regs (a : InputAnswer) : (s.deliver a).regs = s.regs := by unfold State.deliver; split <;> rfl
@[simp] theorem State.deliver_pc (a : InputAnswer) : (s.deliver a).pc = s.pc := by unfold State.deliver; split <;> rfl
@[simp] theorem State.deliver_status (a : InputAnswer) : (s.deliver a).status = s.status := by unfold State.deliver; split <;> rfl
@[simp] theorem State.deliver_mem (a : InputAnswer) : (s.deliver a).mem = s.mem := by unfold State.deliver; split <;> rfl
@[simp] theorem State.deliver_out (a : InputAnswer) : (s.deliver a).out = s.out := by unfold State.deliver; split <;> rfl
@[simp] theorem State.deliver_inp (a : InputAnswer) : (s.deliver a).inp = s.inp := by unfold State.deliver; split <;> rfl
@[simp] theorem State.deliver_cfg (a : InputAnswer) : (s.deliver a).cfg = s.cfg := by unfold State.deliver; split <;> rfl
@[simp] theorem State.deliver_inputEnd (a : InputAnswer) : (s.deliver a).inputEnd = s.inputEnd := by
  unfold State.deliver; split <;> rfl
/-- An answer reaches the queue exactly while a request is unanswered. -/
theorem State.deliver_input (a : InputAnswer) :
    (s.deliver a).input = if s.inputEnd = none then s.input ++ [a] else s.input := by
  unfold State.deliver; split <;> simp_all

@[simp] theorem State.feed_regs (bytes : List Byte) : (s.feed bytes).regs = s.regs := rfl
@[simp] theorem State.feed_pc (bytes : List Byte) : (s.feed bytes).pc = s.pc := rfl
@[simp] theorem State.feed_status (bytes : List Byte) : (s.feed bytes).status = s.status := rfl
@[simp] theorem State.feed_mem (bytes : List Byte) : (s.feed bytes).mem = s.mem := rfl
@[simp] theorem State.feed_out (bytes : List Byte) : (s.feed bytes).out = s.out := rfl
@[simp] theorem State.feed_inp (bytes : List Byte) : (s.feed bytes).inp = s.inp := rfl
@[simp] theorem State.feed_input (bytes : List Byte) : (s.feed bytes).input = bytes.map .byte := rfl
@[simp] theorem State.feed_inputEnd (bytes : List Byte) : (s.feed bytes).inputEnd = some .eof := rfl
@[simp] theorem State.feed_cfg (bytes : List Byte) : (s.feed bytes).cfg = s.cfg := rfl

@[simp] theorem State.withFetchWord_regs (nbits w : Nat) : (s.withFetchWord nbits w).regs = s.regs := rfl
@[simp] theorem State.withFetchWord_pc (nbits w : Nat) : (s.withFetchWord nbits w).pc = s.pc := rfl
@[simp] theorem State.withFetchWord_status (nbits w : Nat) : (s.withFetchWord nbits w).status = .running := rfl
@[simp] theorem State.withFetchWord_mem (nbits w : Nat) : (s.withFetchWord nbits w).mem = s.mem.placeWord s.pc.toNat (BitVec.ofNat 32 (w % 2 ^ nbits)) := rfl
@[simp] theorem State.withFetchWord_out (nbits w : Nat) : (s.withFetchWord nbits w).out = s.out := rfl
@[simp] theorem State.withFetchWord_inp (nbits w : Nat) : (s.withFetchWord nbits w).inp = s.inp := rfl
@[simp] theorem State.withFetchWord_input (nbits w : Nat) : (s.withFetchWord nbits w).input = s.input := rfl
@[simp] theorem State.withFetchWord_inputEnd (nbits w : Nat) : (s.withFetchWord nbits w).inputEnd = s.inputEnd := rfl
@[simp] theorem State.withFetchWord_cfg (nbits w : Nat) : (s.withFetchWord nbits w).cfg = s.cfg := rfl

/-- A register reads the value just written to it, and every other register what it held (R10). -/
theorem State.readReg_writeReg (i r : RegIdx) (v : Word) :
    (s.writeReg i v).readReg r = if i = r then v else s.readReg r := by
  simp [State.writeReg, State.readReg, Vector.getElem_set, Fin.ext_iff]

@[simp] theorem State.readReg_writeReg_self (i : RegIdx) (v : Word) : (s.writeReg i v).readReg i = v := by
  simp [State.readReg_writeReg]

theorem State.readReg_writeReg_of_ne {i r : RegIdx} (h : r ≠ i) (v : Word) :
    (s.writeReg i v).readReg r = s.readReg r := by
  simp [State.readReg_writeReg, h.symm]

@[simp] theorem State.readReg_setMem (r : RegIdx) (m : Memory) : (s.setMem m).readReg r = s.readReg r := rfl
@[simp] theorem State.readReg_emit (r : RegIdx) (v : Scalar) : (s.emit v).readReg r = s.readReg r := rfl
@[simp] theorem State.readReg_consume (r : RegIdx) (a : InputAnswer) : (s.consume a).readReg r = s.readReg r := rfl
@[simp] theorem State.readReg_fault (r : RegIdx) (k : FaultKind) : (s.fault k).readReg r = s.readReg r := rfl
@[simp] theorem State.readReg_route_advance (r : RegIdx) : (s.route .advance).readReg r = s.readReg r := rfl
@[simp] theorem State.readReg_route_jump (r : RegIdx) (t : Word) : (s.route (.jump t)).readReg r = s.readReg r := rfl
@[simp] theorem State.readReg_route_terminate (r : RegIdx) : (s.route .terminate).readReg r = s.readReg r := rfl
@[simp] theorem State.readReg_deliver (r : RegIdx) (a : InputAnswer) : (s.deliver a).readReg r = s.readReg r := by
  unfold State.deliver; split <;> rfl
@[simp] theorem State.readReg_withFetchWord (r : RegIdx) (nbits w : Nat) : (s.withFetchWord nbits w).readReg r = s.readReg r := rfl
@[simp] theorem State.readReg_feed (r : RegIdx) (bytes : List Byte) : (s.feed bytes).readReg r = s.readReg r := rfl

/-! ### The answer to a request -/

theorem State.nextAnswer_eq_none {s : State} : s.nextAnswer = none ↔ s.input = [] ∧ s.inputEnd = none := by
  unfold State.nextAnswer
  cases s.input <;> simp

theorem State.nextAnswer_eq_some {s : State} {a : InputAnswer} :
    s.nextAnswer = some a ↔ (∃ rest, s.input = a :: rest) ∨ (s.input = [] ∧ s.inputEnd = some a) := by
  unfold State.nextAnswer
  cases s.input <;> simp

/-- Two states that agree in every field are one state. -/
theorem State.ext_fields {s t : State} (h1 : s.regs = t.regs) (h2 : s.pc = t.pc) (h3 : s.status = t.status)
    (h4 : s.mem = t.mem) (h5 : s.out = t.out) (h6 : s.inp = t.inp) (h7 : s.input = t.input)
    (h8 : s.inputEnd = t.inputEnd) (h9 : s.cfg = t.cfg) : s = t := by
  cases s; cases t; simp_all

/-- Two register files that read alike are one. -/
theorem State.regs_eq_of_readReg {s t : State} (h : ∀ r, s.readReg r = t.readReg r) : s.regs = t.regs :=
  Vector.ext fun i hi => h ⟨i, hi⟩

end Sys2Proof.Machine
end

