-- ==== Sys2Proof/Laws/Exec.lean ====
section
/-! SUPPORT. What each meaning and one step can answer: every meaning answers a next state, and one lemma per
instruction says which. -/

namespace Sys2Proof.Machine

@[simp] theorem finish_eq_next {r : Routing} {s t : State} : finish r s = .next t ↔ s.route r = t := by
  simp [finish]

@[simp] theorem raise_eq_next {k : FaultKind} {s t : State} : raise k s = .next t ↔ s.fault k = t := by
  simp [raise]

/-- An operation's result is gone on with, or its fault is taken in the state before it. -/
theorem orRaise_eq_next {α : Type} {r : Except FaultKind α} {s t : State} {k : α → Answer} :
    orRaise r s k = .next t ↔ (∃ a, r = .ok a ∧ k a = .next t) ∨ (∃ f, r = .error f ∧ s.fault f = t) := by
  cases r <;> simp [orRaise]

/-! ### One lemma per meaning -/

theorem execCmov_next {a b c : RegIdx} {s t : State} : execCmov a b c s = .next t ↔
    (s.readReg c ≠ 0 ∧ (s.writeReg a (s.readReg b)).route .advance = t) ∨
    (s.readReg c = 0 ∧ s.route .advance = t) := by
  unfold execCmov isNonzero
  by_cases h : s.readReg c = 0
  · simp [h]
  · simp only [bne_iff_ne, h, ne_eq, not_false_eq_true, if_true, finish_eq_next, true_and, false_and, or_false]

theorem execAdd_next {a b c : RegIdx} {s t : State} : execAdd a b c s = .next t ↔
    (s.writeReg a (s.readReg b + s.readReg c)).route .advance = t := finish_eq_next

theorem execMul_next {a b c : RegIdx} {s t : State} : execMul a b c s = .next t ↔
    (s.writeReg a (s.readReg b * s.readReg c)).route .advance = t := finish_eq_next

theorem execNand_next {a b c : RegIdx} {s t : State} : execNand a b c s = .next t ↔
    (s.writeReg a (~~~(s.readReg b &&& s.readReg c))).route .advance = t := finish_eq_next

theorem execDiv_next {a b c : RegIdx} {s t : State} : execDiv a b c s = .next t ↔
    (s.readReg c ≠ 0 ∧ (s.writeReg a (s.readReg b / s.readReg c)).route .advance = t) ∨
    (s.readReg c = 0 ∧ s.fault .divisionByZero = t) := by
  unfold execDiv divResult
  by_cases h : s.readReg c = 0
  · simp [h, orRaise]
  · simp only [h, if_false, orRaise, ne_eq, not_false_eq_true, finish_eq_next, true_and, false_and, or_false]

theorem execSload_next {a b c : RegIdx} {s t : State} : execSload a b c s = .next t ↔
    (∃ v, s.mem.read (s.readReg b).toNat (s.readReg c).toNat = .ok v ∧ (s.writeReg a v).route .advance = t) ∨
    (∃ k, s.mem.read (s.readReg b).toNat (s.readReg c).toNat = .error k ∧ s.fault k = t) := by
  unfold execSload
  simp [orRaise_eq_next, sloadAddress, State.dataAddress]

theorem execSstore_next {a b c : RegIdx} {s t : State} : execSstore a b c s = .next t ↔
    (∃ m, s.mem.write (s.readReg a).toNat (s.readReg b).toNat (s.readReg c) = .ok m ∧
      (s.setMem m).route .advance = t) ∨
    (∃ k, s.mem.write (s.readReg a).toNat (s.readReg b).toNat (s.readReg c) = .error k ∧ s.fault k = t) := by
  unfold execSstore
  simp [orRaise_eq_next, sstoreAddress, State.dataAddress]

theorem execMap_next {b c : RegIdx} {s t : State} : execMap b c s = .next t ↔
    (∃ h m, s.mem.alloc s.cfg (s.readReg c).toNat = .ok (h, m) ∧
      ((s.setMem m).writeReg b (handleWord h)).route .advance = t) ∨
    (∃ k, s.mem.alloc s.cfg (s.readReg c).toNat = .error k ∧ s.fault k = t) := by
  unfold execMap
  simp [orRaise_eq_next, Prod.exists]

theorem execUnmap_next {c : RegIdx} {s t : State} : execUnmap c s = .next t ↔
    (∃ m, s.mem.dealloc (s.readReg c).toNat = .ok m ∧ (s.setMem m).route .advance = t) ∨
    (∃ k, s.mem.dealloc (s.readReg c).toNat = .error k ∧ s.fault k = t) := by
  unfold execUnmap
  simp [orRaise_eq_next]

theorem execLoadp_next {b c : RegIdx} {s t : State} : execLoadp b c s = .next t ↔
    (∃ m, s.mem.dupIntoZero s.cfg (s.readReg b).toNat = .ok m ∧
      (s.setMem m).route (.jump (s.readReg c)) = t) ∨
    (∃ k, s.mem.dupIntoZero s.cfg (s.readReg b).toNat = .error k ∧ s.fault k = t) := by
  unfold execLoadp
  simp [orRaise_eq_next]

theorem execLoadv_next {rd : RegIdx} {value : Word} {s t : State} : execLoadv rd value s = .next t ↔
    (s.writeReg rd (immediate value)).route .advance = t := finish_eq_next

theorem execHalt_next {s t : State} : execHalt s = .next t ↔ s.route .terminate = t := finish_eq_next

theorem execOut_next {c : RegIdx} {s t : State} : execOut c s = .next t ↔
    (isScalar (s.readReg c) = true ∧ (s.emit (scalarOf (s.readReg c))).route .advance = t) ∨
    (isScalar (s.readReg c) = false ∧ s.fault .invalidOutputValue = t) := by
  unfold execOut
  by_cases h : isScalar (s.readReg c) = true <;> simp [h]

theorem execIn_next {c : RegIdx} {s t : State} : execIn c s = .next t ↔
    (s.nextAnswer = none ∧ s = t) ∨
    (∃ b, s.nextAnswer = some (.byte b) ∧
      ((s.consume (.byte b)).writeReg c (byteWord b)).route .advance = t) ∨
    (s.nextAnswer = some .eof ∧ ((s.consume .eof).writeReg c eofWord).route .advance = t) ∨
    (s.nextAnswer = some .err ∧ s.cfg.inputErrorPolicy = .ignore ∧ (s.consume .err).route .advance = t) ∨
    (s.nextAnswer = some .err ∧ s.cfg.inputErrorPolicy = .fault ∧ s.fault .inputError = t) := by
  unfold execIn
  split
  · next h => simp [h]
  · next b h => simp [h]
  · next h => simp [h]
  · next h => split <;> next hp => simp [h, hp]

/-- Every meaning answers a next state, in every state. -/
theorem exec_total (i : Instr) (s : State) : ∃ t, exec i s = .next t := by
  have key : ∀ {α : Type} (r : Except FaultKind α) (k : α → Answer), (∀ a, ∃ t, k a = .next t) →
      ∃ t, orRaise r s k = .next t := fun r k hk => by
    cases r with
    | ok a => exact hk a
    | error f => exact ⟨_, rfl⟩
  cases i with
  | cmov a b c => exact ⟨_, rfl⟩
  | add a b c => exact ⟨_, rfl⟩
  | mul a b c => exact ⟨_, rfl⟩
  | nand a b c => exact ⟨_, rfl⟩
  | halt => exact ⟨_, rfl⟩
  | loadv rd value => exact ⟨_, rfl⟩
  | div a b c => exact key _ _ fun _ => ⟨_, rfl⟩
  | sload a b c => exact key _ _ fun _ => ⟨_, rfl⟩
  | sstore a b c => exact key _ _ fun _ => ⟨_, rfl⟩
  | map b c => exact key _ _ fun _ => ⟨_, rfl⟩
  | unmap c => exact key _ _ fun _ => ⟨_, rfl⟩
  | loadp b c => exact key _ _ fun _ => ⟨_, rfl⟩
  | out c =>
    cases h : isScalar (s.readReg c)
    · exact ⟨_, execOut_next.2 (.inr ⟨h, rfl⟩)⟩
    · exact ⟨_, execOut_next.2 (.inl ⟨h, rfl⟩)⟩
  | inp c =>
    rcases hi : s.nextAnswer with _ | _ | _ | _
    · exact ⟨_, execIn_next.2 (.inl ⟨hi, rfl⟩)⟩
    · exact ⟨_, execIn_next.2 (.inr (.inl ⟨_, hi, rfl⟩))⟩
    · exact ⟨_, execIn_next.2 (.inr (.inr (.inl ⟨hi, rfl⟩)))⟩
    · cases hp : s.cfg.inputErrorPolicy
      · exact ⟨_, execIn_next.2 (.inr (.inr (.inr (.inl ⟨hi, hp, rfl⟩))))⟩
      · exact ⟨_, execIn_next.2 (.inr (.inr (.inr (.inr ⟨hi, hp, rfl⟩))))⟩

/-- Under the premise `InputIs(bytes)` every request is answered (R21). -/
theorem State.nextAnswer_of_inputIs {s : State} {bytes : List Byte} (h : s.InputIs bytes) :
    s.nextAnswer = some (inputIsAnswer bytes 0) := by
  unfold State.nextAnswer inputIsAnswer
  rw [h.1, h.2]
  cases bytes <;> simp

/-- A host that holds `bytes` meets the premise. -/
theorem State.inputIs_feed (s : State) (bytes : List Byte) : (s.feed bytes).InputIs bytes := ⟨rfl, rfl⟩

/-! ### Everything an instruction can do -/

/-- Everything an instruction can do to the state, once: a fact about the next state holds if it holds of a hold, of a
fault the instruction may raise, and of each way an instruction completes. -/
theorem exec_next_cases {P : State → Prop} {i : Instr} {s t : State} (h : exec i s = .next t)
    (hold : ∀ c, i = .inp c → s.nextAnswer = none → P s)
    (fault : ∀ k, MayRaise s i k → P (s.fault k))
    (reg : ∀ a v, written i = some a → (∀ c, i ≠ .inp c) → P ((s.writeReg a v).route .advance))
    (noreg : (∃ a b c, i = .cmov a b c) → P (s.route .advance))
    (store : ∀ a b c m, i = .sstore a b c →
      s.mem.write (s.readReg a).toNat (s.readReg b).toNat (s.readReg c) = .ok m → P ((s.setMem m).route .advance))
    (map : ∀ b c h m, i = .map b c → s.mem.alloc s.cfg (s.readReg c).toNat = .ok (h, m) →
      P (((s.setMem m).writeReg b (handleWord h)).route .advance))
    (unmap : ∀ c m, i = .unmap c → s.mem.dealloc (s.readReg c).toNat = .ok m → P ((s.setMem m).route .advance))
    (loadp : ∀ b c m, i = .loadp b c → s.mem.dupIntoZero s.cfg (s.readReg b).toNat = .ok m →
      P ((s.setMem m).route (.jump (s.readReg c))))
    (out : ∀ c, i = .out c → isScalar (s.readReg c) = true →
      P ((s.emit (scalarOf (s.readReg c))).route .advance))
    (inp : ∀ c a v, i = .inp c → s.nextAnswer = some a → a ≠ .err →
      P (((s.consume a).writeReg c v).route .advance))
    (inerr : ∀ c, i = .inp c → s.nextAnswer = some .err → P ((s.consume .err).route .advance))
    (halt : i = .halt → P (s.route .terminate)) : P t := by
  cases i <;> simp only [exec] at h
  case cmov => obtain ⟨_, rfl⟩ | ⟨_, rfl⟩ := execCmov_next.1 h; exact reg _ _ rfl (by simp); exact noreg ⟨_, _, _, rfl⟩
  case add => obtain rfl := execAdd_next.1 h; exact reg _ _ rfl (by simp)
  case mul => obtain rfl := execMul_next.1 h; exact reg _ _ rfl (by simp)
  case nand => obtain rfl := execNand_next.1 h; exact reg _ _ rfl (by simp)
  case loadv => obtain rfl := execLoadv_next.1 h; exact reg _ _ rfl (by simp)
  case halt => obtain rfl := execHalt_next.1 h; exact halt rfl
  case div =>
    obtain ⟨_, rfl⟩ | ⟨_, rfl⟩ := execDiv_next.1 h
    · exact reg _ _ rfl (by simp)
    · exact fault _ rfl
  case sload =>
    obtain ⟨_, _, rfl⟩ | ⟨_, hk, rfl⟩ := execSload_next.1 h
    · exact reg _ _ rfl (by simp)
    · cases (Memory.read_eq_error.1 hk).2; exact fault _ (.inl rfl)
  case sstore =>
    obtain ⟨_, hk, rfl⟩ | ⟨_, hk, rfl⟩ := execSstore_next.1 h
    · exact store _ _ _ _ rfl hk
    · cases (Memory.write_eq_error.1 hk).2; exact fault _ (.inr (.inl rfl))
  case map =>
    obtain ⟨_, _, hk, rfl⟩ | ⟨_, hk, rfl⟩ := execMap_next.1 h
    · exact map _ _ _ _ rfl hk
    · cases (Memory.alloc_eq_error.1 hk).2; exact fault _ (.inl rfl)
  case unmap =>
    obtain ⟨_, hk, rfl⟩ | ⟨_, hk, rfl⟩ := execUnmap_next.1 h
    · exact unmap _ _ rfl hk
    · cases (Memory.dealloc_eq_error.1 hk).2; exact fault _ rfl
  case loadp =>
    obtain ⟨_, hk, rfl⟩ | ⟨_, hk, rfl⟩ := execLoadp_next.1 h
    · exact loadp _ _ _ rfl hk
    · obtain ⟨-, ⟨_, hk⟩ | ⟨_, he, hk⟩⟩ := Memory.dupIntoZero_eq_error.1 hk
      · cases hk; exact fault _ (.inr (.inr rfl))
      · cases hk; refine fault _ (.inr ⟨rfl, fun hn => ?_⟩)
        simp [exceedsWords, hn] at he
  case out =>
    obtain ⟨hk, rfl⟩ | ⟨_, rfl⟩ := execOut_next.1 h
    · exact out _ rfl hk
    · exact fault _ rfl
  case inp =>
    obtain ⟨hk, rfl⟩ | ⟨_, hk, rfl⟩ | ⟨hk, rfl⟩ | ⟨hk, _, rfl⟩ | ⟨_, hp, rfl⟩ := execIn_next.1 h
    · exact hold _ rfl hk
    · exact inp _ _ _ rfl hk (by simp)
    · exact inp _ _ _ rfl hk (by simp)
    · exact inerr _ rfl hk
    · exact fault _ ⟨rfl, hp⟩

/-! ### One step -/

/-- Everything a step that answers a next state can be: a running machine's fetch fault, its illegal word, or the
decoded instruction run (R70). -/
theorem step_eq_next {s t : State} : step s = .next t ↔ s.status = .running ∧
    ((∃ k, s.mem.fetch s.pc = .error k ∧ s.fault k = t) ∨
     (∃ w e, s.mem.fetch s.pc = .ok w ∧ decodeWith s.cfg.opmap w = .error e ∧ s.fault .invalidOpcode = t) ∨
     (∃ w i, s.mem.fetch s.pc = .ok w ∧ decodeWith s.cfg.opmap w = .ok i ∧ exec i s = .next t)) := by
  unfold step
  cases hs : s.status <;> simp only [reduceCtorEq, false_and, true_and, orRaise_eq_next]
  constructor
  · rintro (⟨w, hw, h⟩ | h)
    · cases hd : decodeWith s.cfg.opmap w with
      | ok i => exact .inr (.inr ⟨w, i, hw, hd, by simpa [hd] using h⟩)
      | error e => exact .inr (.inl ⟨w, e, hw, hd, by simpa [hd] using h⟩)
    · exact .inl h
  · rintro (h | ⟨w, e, hw, hd, h⟩ | ⟨w, i, hw, hd, h⟩)
    · exact .inr h
    · exact .inl ⟨w, hw, by simpa [hd] using h⟩
    · exact .inl ⟨w, hw, by simpa [hd] using h⟩

/-- A fact about every next state of a step follows from the fault entries and the instructions. -/
theorem step_next_cases {s : State} {P : State → Prop} (hf : ∀ k, k ≠ .programLoadError → P (s.fault k))
    (he : ∀ i t, s.status = .running → exec i s = .next t → P t) {t : State} (h : step s = .next t) : P t := by
  obtain ⟨hr, ⟨k, hk, rfl⟩ | ⟨_, _, _, _, rfl⟩ | ⟨_, i, _, _, hi⟩⟩ := step_eq_next.1 h
  · exact hf k (by rw [← (Memory.fetch_eq_error.1 hk).2]; simp)
  · exact hf _ (by simp)
  · exact he i t hr hi

/-- Segment 0 grown to hold offset `o` is canonical. -/
theorem Memory.grown_wf {m : Memory} (hm : m.wf) (o : Nat) :
    Segment.wf { m.segment 0 with len := max (m.len 0) (o + 1) } :=
  ⟨(m.segment_wf hm 0).1, fun p hp => by
    have := (m.segment_wf hm 0).2 p hp
    exact ⟨Nat.lt_of_lt_of_le this.1 (Nat.le_max_left _ _), this.2⟩⟩

/-- Placing a word keeps the canonical form. -/
theorem Memory.placeWord_wf {m : Memory} (hm : m.wf) (o : Nat) (w : Word) : (m.placeWord o w).wf := by
  intro g hg
  rcases List.mem_cons.1 hg with rfl | hg
  · exact Segment.wf_set (Memory.grown_wf hm o) (Nat.lt_of_lt_of_le (Nat.lt_succ_self o) (Nat.le_max_right _ _)) w
  · exact hm g (List.mem_of_mem_drop hg)

/-- The memory of reset is canonical. -/
theorem State.reset_mem_wf : State.reset.mem.wf := by decide

/-- A word placed for the next fetch is what it fetches. -/
theorem Memory.fetch_placeWord {m : Memory} (hm : m.wf) (pc w : Word) :
    (m.placeWord pc.toNat w).fetch pc = .ok w := by
  rw [Memory.fetch_eq_ok]
  constructor
  · show pc.toNat < max (m.len 0) (pc.toNat + 1)
    omega
  · show (Segment.set { m.segment 0 with len := max (m.len 0) (pc.toNat + 1) } pc.toNat w).get pc.toNat = w
    rw [Segment.get_set (Memory.grown_wf hm pc.toNat), if_pos rfl]

/-- The step after placing a word runs the instruction it decodes to. -/
theorem step_withFetchWord {s : State} (hm : s.mem.wf) (nbits w : Nat) {i : Instr}
    (hd : decodeWith s.cfg.opmap (BitVec.ofNat 32 (w % 2 ^ nbits)) = .ok i) :
    step (s.withFetchWord nbits w) = exec i (s.withFetchWord nbits w) := by
  have hf : (s.withFetchWord nbits w).mem.fetch (s.withFetchWord nbits w).pc = .ok (BitVec.ofNat 32 (w % 2 ^ nbits)) :=
    Memory.fetch_placeWord hm s.pc _
  have hd' : decodeWith (s.withFetchWord nbits w).cfg.opmap (BitVec.ofNat 32 (w % 2 ^ nbits)) = .ok i := hd
  simp only [step, State.withFetchWord_status, hf, orRaise, hd']

end Sys2Proof.Machine
end

