-- ==== Sys2Proof/Laws/PerInstr.lean ====
section
/-! SUPPORT. One fact per instruction, as syntax: the opcode field of its encoding is the value `OPMAP` gives its
operation (R61). -/

namespace Sys2Proof.Laws.EncodeOpcode

/-- The top four bits of the encoding of `i` are its operation's opcode, whatever the numbering. -/
def Statement (i : Instr) : Prop :=
  ∀ m : OpMap, m.wf = true → i.wf = true → opcodeField (encodeWith m i) = m.opcodeOf i.op

/-- The three-register form of `Statement`. -/
theorem r3 {m : OpMap} (hm : m.wf = true) (op : Op) {a b c : Nat} (ha : a ≤ 7) (hb : b ≤ 7) (hc : c ≤ 7) :
    opcodeField (BitVec.ofNat 32 (encR3 (m.opcodeOf op) a b c)) = m.opcodeOf op := by
  have h := encR3_fields (by have := m.opcodeOf_lt hm op; omega : m.opcodeOf op ≤ 15) ha hb hc
  rw [opcodeField_eq, BitVec.toNat_ofNat, Nat.mod_eq_of_lt h.1, h.2.1]

theorem cmov (a b c : RegIdx) : Statement (.cmov a b c) := fun _ hm _ => r3 hm _ (by omega) (by omega) (by omega)
theorem sload (a b c : RegIdx) : Statement (.sload a b c) := fun _ hm _ => r3 hm _ (by omega) (by omega) (by omega)
theorem sstore (a b c : RegIdx) : Statement (.sstore a b c) := fun _ hm _ => r3 hm _ (by omega) (by omega) (by omega)
theorem add (a b c : RegIdx) : Statement (.add a b c) := fun _ hm _ => r3 hm _ (by omega) (by omega) (by omega)
theorem mul (a b c : RegIdx) : Statement (.mul a b c) := fun _ hm _ => r3 hm _ (by omega) (by omega) (by omega)
theorem div (a b c : RegIdx) : Statement (.div a b c) := fun _ hm _ => r3 hm _ (by omega) (by omega) (by omega)
theorem nand (a b c : RegIdx) : Statement (.nand a b c) := fun _ hm _ => r3 hm _ (by omega) (by omega) (by omega)
theorem halt : Statement .halt := fun _ hm _ => r3 hm _ (by omega) (by omega) (by omega)
theorem map (b c : RegIdx) : Statement (.map b c) := fun _ hm _ => r3 hm _ (by omega) (by omega) (by omega)
theorem unmap (c : RegIdx) : Statement (.unmap c) := fun _ hm _ => r3 hm _ (by omega) (by omega) (by omega)
theorem out (c : RegIdx) : Statement (.out c) := fun _ hm _ => r3 hm _ (by omega) (by omega) (by omega)
theorem inp (c : RegIdx) : Statement (.inp c) := fun _ hm _ => r3 hm _ (by omega) (by omega) (by omega)
theorem loadp (b c : RegIdx) : Statement (.loadp b c) := fun _ hm _ => r3 hm _ (by omega) (by omega) (by omega)

theorem loadv (rd : RegIdx) (value : Word) : Statement (.loadv rd value) := by
  intro m hm hw
  have hv : value.toNat < 2 ^ 25 := by simpa [Instr.wf] using hw
  have h := encImm_fields (by have := m.opcodeOf_lt hm .loadv; omega : m.opcodeOf .loadv ≤ 15)
    (by omega : rd.val ≤ 7) hv
  show opcodeField (BitVec.ofNat 32 (encImm (m.opcodeOf .loadv) rd value.toNat)) = m.opcodeOf .loadv
  rw [opcodeField_eq, BitVec.toNat_ofNat, Nat.mod_eq_of_lt h.1, h.2.1]

end Sys2Proof.Laws.EncodeOpcode
end

