-- ==== Sys2Proof/Tests/Slice0.lean ====
section
/-! SUPPORT. Tests with values from spec/95_test_vectors.md and the instruction rules, the WellFormed smoke test, and for
every statement with hypotheses a concrete state and operands that meet them. -/

open Sys2Proof Sys2Proof.Machine Sys2Proof.Rules

namespace Sys2Proof.Tests

/-! ### States the tests run on -/

/-- One instruction at `(0, 0)`, registers as given (95_test_vectors.md section 2.3). -/
def one (w : Word) (regs : Vector Word 8) : State :=
  { State.reset with regs := regs, mem := { slots := [Segment.ofWords [w]], free := [] } }

/-- Segment 0 is `[w, 0]`, segment 1 is `[0, 0x01ABCDEF]`, segment 2 is free, segment 3 is mapped and empty. -/
def four (w : Word) (regs : Vector Word 8) : State :=
  { State.reset with
    regs := regs
    mem := { slots := [Segment.ofWords [w, 0], Segment.ofWords [0, 0x01ABCDEF], Segment.zeros 0, Segment.zeros 0]
             free := [2] } }

/-- `s` with input answers waiting. -/
def given (input : List InputAnswer) (s : State) : State := { s with input := input }

/-- `s` under other parameters. -/
def under (f : Config → Config) (s : State) : State := { s with cfg := f s.cfg }

/-- What a step's next state shows of itself. -/
def seen {α : Type} (f : State → α) : Host.Outcome State Fault Refusal → Option α
  | .next t => some (f t)
  | .fault _ => none
  | .refused _ => none

/-- The registers 1, 2, 3 as given, the others 0. -/
def r123 (a b c : Word) : Vector Word 8 := #v[0, a, b, c, 0, 0, 0, 0]

/-- The register file of reset. -/
def r0 : Vector Word 8 := r123 0 0 0

/-- The default OPMAP with the first two operations exchanged. -/
def otherMap : OpMap :=
  #v[.sload, .cmov, .sstore, .add, .mul, .div, .nand, .halt, .map, .unmap, .out, .inp, .loadp, .loadv]

/-! ### WellFormed -/

theorem test_wf_loadv_26_bits_refused : (Instr.loadv 0 0x2000000).wf = false := by decide
theorem test_wf_loadv_25_bits : (Instr.loadv 0 0x1FFFFFF).wf = true := by decide
theorem test_wf_opmap_repeats_refused :
    OpMap.wf #v[.cmov, .cmov, .sstore, .add, .mul, .div, .nand, .halt, .map, .unmap, .out, .inp, .loadp, .loadv]
      = false := by decide
theorem test_wf_opmap_permuted : otherMap.wf = true := by decide
theorem test_wf_codes_repeat_refused : FaultCodes.wf ⟨1, 1, 3, 4, 5, 6, 7, 8, 9⟩ = false := by decide
theorem test_wf_code_zero_refused : FaultCodes.wf ⟨0, 2, 3, 4, 5, 6, 7, 8, 9⟩ = false := by decide
theorem test_wf_no_handles_refused : Config.wf { Config.default with maxHandles := 0 } = false := by decide
theorem test_wf_handles_over_word_refused : Config.wf { Config.default with maxHandles := 2 ^ 32 + 1 } = false := by
  decide
theorem test_wf_default : Config.default.wf = true := by decide

/-! ### Decoding: words written out from rules R51, R52 and R55, and the examples of the instruction rules -/

theorem test_decode_cmov : decode 0b0000_0000000000000000000_100_101_001 = .ok (.cmov 4 5 1) := by decide
theorem test_decode_sload : decode 0b0001_0000000000000000000_110_010_100 = .ok (.sload 6 2 4) := by decide
theorem test_decode_sstore : decode 0b0010_0000000000000000000_010_100_101 = .ok (.sstore 2 4 5) := by decide
theorem test_decode_add : decode 0b0011_0000000000000000000_001_001_011 = .ok (.add 1 1 3) := by decide
theorem test_decode_mul : decode 0b0100_0000000000000000000_010_010_011 = .ok (.mul 2 2 3) := by decide
theorem test_decode_div : decode 0b0101_0000000000000000000_010_001_000 = .ok (.div 2 1 0) := by decide
theorem test_decode_nand : decode 0b0110_0000000000000000000_011_000_000 = .ok (.nand 3 0 0) := by decide
theorem test_decode_halt : decode 0b0111_1111111111111111111_111_111_111 = .ok .halt := by decide
theorem test_decode_map : decode 0b1000_0000000000000000000_111_010_001 = .ok (.map 2 1) := by decide
theorem test_decode_unmap : decode 0b1001_0000000000000000000_111_111_010 = .ok (.unmap 2) := by decide
theorem test_decode_out : decode 0b1010_0000000000000000000_000_000_101 = .ok (.out 5) := by decide
theorem test_decode_in : decode 0b1011_0000000000000000000_000_000_001 = .ok (.inp 1) := by decide
theorem test_decode_loadp : decode 0b1100_0000000000000000000_000_100_000 = .ok (.loadp 4 0) := by decide
theorem test_decode_loadv : decode 0b1101_101_1101010111100110111101111 = .ok (.loadv 5 0x1ABCDEF) := by decide
theorem test_decode_14 : decode 0xE0000000 = .error (.unassignedOpcode 14) := by decide
theorem test_decode_15 : decode 0xFFFFFFFF = .error (.unassignedOpcode 15) := by decide
theorem test_decode_follows_opmap : decodeWith otherMap 0x00000129 = .ok (.sload 4 5 1) := by decide

/-- The words of the rules' examples, in the other direction. -/
theorem test_encode :
    encode (.cmov 4 5 1) = 0x00000129 ∧ encode (.sload 6 2 4) = 0x10000194 ∧ encode (.sstore 2 4 5) = 0x200000A5 ∧
    encode (.add 1 1 3) = 0x3000004B ∧ encode (.mul 2 2 3) = 0x40000093 ∧ encode (.div 2 1 0) = 0x50000088 ∧
    encode (.nand 3 0 0) = 0x600000C0 ∧ encode .halt = 0x70000000 ∧ encode (.map 2 1) = 0x80000011 ∧
    encode (.unmap 2) = 0x90000002 ∧ encode (.out 0) = 0xA0000000 ∧ encode (.inp 1) = 0xB0000001 ∧
    encode (.loadp 4 0) = 0xC0000020 ∧ encode (.loadv 6 0x1FFFFFF) = 0xDDFFFFFF := by decide

theorem test_decodeTableWord :
    decodeTableWord 32 0xA0000005 = some (.out 5) ∧ decodeTableWord 32 0xE0000000 = none ∧
    decodeTableWord 64 0xA0000005 = none := by decide

/-- Reset with one instruction placed runs exactly that instruction (program P1's first word). -/
theorem test_withFetchWord :
    seen (fun t => (t.readReg 0, t.pc, t.status)) (step (State.reset.withFetchWord 32 0xD0000048))
      = some (72, 1, .running) := by decide

/-! ### One step of each instruction -/

theorem test_cmov_top_bit : seen (·.readReg 1) (step (one 0x00000053 (r123 9 5 0x80000000))) = some 5 := by decide
theorem test_cmov_zero : seen (·.readReg 1) (step (one 0x00000053 (r123 9 5 0))) = some 9 := by decide
theorem test_add_wraps : seen (·.readReg 1) (step (one 0x30000053 (r123 7 0xFFFFFFFF 1))) = some 0 := by decide
theorem test_add_aliased : seen (·.readReg 1) (step (one 0x30000049 (r123 5 0 0))) = some 0xA := by decide
theorem test_mul_low_half :
    seen (·.readReg 1) (step (one 0x40000053 (r123 7 0xFFFFFFFF 0xFFFFFFFF))) = some 1 := by decide
theorem test_div_unsigned : seen (·.readReg 1) (step (one 0x50000053 (r123 7 0xFFFFFFFF 2))) = some 0x7FFFFFFF := by
  decide
theorem test_div_by_zero :
    seen (fun t => (t.readReg 1, t.pc, t.status)) (step (one 0x50000053 (r123 9 5 0)))
      = some (9, 0, .faulted .divisionByZero) := by decide
theorem test_nand : seen (·.readReg 1) (step (one 0x60000053 (r123 7 0xF0F0F0F0 0xFF00FF00))) = some 0x0FFF0FFF := by
  decide
theorem test_loadv : seen (·.readReg 6) (step (one 0xDDFFFFFF r0)) = some 0x01FFFFFF := by decide
theorem test_halt : seen (fun t => (t.pc, t.status)) (step (one 0x70000000 r0)) = some (0, .halted) := by decide

/-- `SLOAD r3, r1, r2`: segment 1, offset 1. -/
theorem test_sload : seen (·.readReg 3) (step (four 0x100000CA (r123 1 1 7))) = some 0x01ABCDEF := by decide
theorem test_sload_free_handle :
    seen (fun t => (t.readReg 3, t.status)) (step (four 0x100000CA (r123 2 0 7)))
      = some (7, .faulted .outOfBoundsAccess) := by decide

/-- `SSTORE r1, r2, r3`: handle in A, offset in B, value in C. -/
theorem test_sstore :
    seen (fun t => (t.mem.segment 1).words) (step (four 0x20000053 (r123 1 0 7))) = some [7, 0x01ABCDEF] := by decide
theorem test_sstore_at_length :
    seen (fun t => ((t.mem.segment 1).words, t.status)) (step (four 0x20000053 (r123 1 2 7)))
      = some ([0, 0x01ABCDEF], .faulted .outOfBoundsAccess) := by decide

/-- `MAP r2, r2` from reset with `x[2] = 3` (section 2.4's last line). -/
theorem test_map_aliased :
    seen (fun t => (t.readReg 2, (t.mem.segment 1).words, t.mem.count)) (step (one 0x80000012 (r123 0 3 0)))
      = some (1, [0, 0, 0], 2) := by decide
theorem test_map_reuses_the_top :
    seen (fun t => (t.readReg 2, t.mem.free, (t.mem.segment 2).words)) (step (four 0x80000011 (r123 2 0 0)))
      = some (2, [], [0, 0]) := by decide
theorem test_unmap :
    seen (fun t => (t.mem.free, t.mem.segment 1)) (step (four 0x90000001 (r123 1 0 0)))
      = some ([1, 2], Segment.zeros 0) := by decide
theorem test_unmap_zero :
    seen (fun t => (t.pc, t.status)) (step (one 0x90000000 r0)) = some (0, .faulted .invalidSegmentOp) := by decide

/-- `LOADP r1, r2`. -/
theorem test_loadp_copies :
    seen (fun t => ((t.mem.segment 0).words, t.pc)) (step (four 0xC000000A (r123 1 9 0)))
      = some ([0, 0x01ABCDEF], 9) := by decide
theorem test_loadp_zero_jumps :
    seen (fun t => (t.mem, t.pc)) (step (four 0xC0000002 (r123 0 9 0))) = some ((four 0xC0000002 r0).mem, 9) := by
  decide
theorem test_out_top : seen (·.out) (step (one 0xA0000001 (r123 0x10FFFF 0 0))) = some [0x10FFFF] := by decide
theorem test_out_surrogate :
    seen (fun t => (t.out, t.status)) (step (one 0xA0000001 (r123 0xD800 0 0)))
      = some ([], .faulted .invalidOutputValue) := by decide
theorem test_in_byte :
    seen (fun t => (t.readReg 1, t.inp)) (step (given [.byte 0xFF, .eof] (one 0xB0000001 (r123 5 0 0))))
      = some (0xFF, [.byte 0xFF]) := by decide
theorem test_in_eof :
    seen (fun t => (t.readReg 1, t.input)) (step (given [.eof] (one 0xB0000001 r0))) = some (0xFFFFFFFF, []) := by
  decide
/-- Program P6's first run: after the bytes of `InputIs` every request is answered by end-of-stream, the second too. -/
theorem test_in_eof_for_ever :
    seen (fun t => (t.readReg 1, t.inp)) (step { (one 0xB0000001 r0).feed [] with inp := [.eof] })
      = some (0xFFFFFFFF, [.eof, .eof]) := by decide
theorem test_in_holds : step (one 0xB0000001 r0) = .next (one 0xB0000001 r0) := rfl

/-! ### Reset, faults, ends, and the host's side -/

theorem test_empty_program : step State.reset = .next (State.reset.fault .outOfBoundsFetch) := rfl
theorem test_unassigned : step (one 0xF0000000 r0) = .next ((one 0xF0000000 r0).fault .invalidOpcode) := rfl
theorem test_no_step_after_halt : step { State.reset with status := .halted } = .fault .alreadyHalted := rfl
theorem test_no_step_after_fault :
    step (State.reset.fault .inputError) = .fault (.alreadyFaulted .inputError) := rfl
theorem test_status_port : (State.reset.fault .divisionByZero).statusPort = (2, 5) := by decide
theorem test_diagnostic :
    seen (fun t => t.diagnostic.map fun d => (d.reason, d.pc, d.value)) (step (one 0xA0000001 (r123 0xD800 0 0)))
      = some (some (.invalidOutputValue, 0, some 0xD800)) := by decide
theorem test_launch :
    (launch Config.default [0xD0000048, 0xA0000000, 0x70000000]).map
      (fun s => ((s.mem.segment 0).words, s.pc, s.mem.count)) = some ([0xD0000048, 0xA0000000, 0x70000000], 0, 1) := by
  decide
/-- Rule R134's example: the trailing `FF FF` is dropped. -/
theorem test_image :
    loadImage [0xD0, 0x00, 0x00, 0x48, 0xA0, 0x00, 0x00, 0x00, 0x70, 0x00, 0x00, 0x00, 0xFF, 0xFF]
      = [0xD0000048, 0xA0000000, 0x70000000] := by decide

/-! ### Witnesses: for each statement with hypotheses, a state and operands that meet them -/

/-- A next state of which `P` holds is there when evaluating says so. -/
theorem has {o : Host.Outcome State Fault Refusal} {P : State → Prop} [DecidablePred P]
    (h : seen (fun t => decide (P t)) o = some true) : ∃ t, o = .next t ∧ P t := by
  cases o with
  | next t => exact ⟨t, rfl, of_decide_eq_true (Option.some.inj h)⟩
  | fault _ => exact nomatch h
  | refused _ => exact nomatch h

theorem witness_DecodeReadsTheFieldsOfTheOpcode :
    OpMap.default.wf = true ∧ otherMap.wf = true ∧ 14 ≤ topBits 0xE0000000 ∧ 14 ≤ topBits 0xFFFFFFFF ∧
    topBits 0xDFFFFFFF < 14 ∧ topBits 0x00000129 = OpMap.default.opcodeOf .cmov ∧
    topBits 0x00000129 = otherMap.opcodeOf .sload ∧
    topBits 0x10000194 = OpMap.default.opcodeOf .sload ∧ topBits 0x200000A5 = OpMap.default.opcodeOf .sstore ∧
    topBits 0x3000004B = OpMap.default.opcodeOf .add ∧ topBits 0x40000093 = OpMap.default.opcodeOf .mul ∧
    topBits 0x50000088 = OpMap.default.opcodeOf .div ∧ topBits 0x600000C0 = OpMap.default.opcodeOf .nand ∧
    topBits 0x70000000 = OpMap.default.opcodeOf .halt ∧ topBits 0x80000011 = OpMap.default.opcodeOf .map ∧
    topBits 0x90000002 = OpMap.default.opcodeOf .unmap ∧ topBits 0xA0000000 = OpMap.default.opcodeOf .out ∧
    topBits 0xB0000001 = OpMap.default.opcodeOf .inp ∧ topBits 0xC0000020 = OpMap.default.opcodeOf .loadp ∧
    topBits 0xDFFFFFFF = OpMap.default.opcodeOf .loadv := by decide

theorem witness_DecodeOfEncodeIsTheInstruction :
    otherMap.wf = true ∧ (Instr.sload 6 2 4).wf = true ∧ (Instr.loadv 7 0x1FFFFFF).wf = true := by decide

theorem witness_EncodeOfDecodeClearsUnusedBits :
    OpMap.default.wf = true ∧ decodeWith OpMap.default 0x7FFFFFFF = .ok .halt ∧ Instr.op .halt ≠ .loadv ∧
    decodeWith OpMap.default 0xDFFFFFFF = .ok (.loadv 7 0x1FFFFFF) ∧ Instr.op (.loadv 7 0x1FFFFFF) = .loadv ∧
    decodeWith OpMap.default 0x8FFFFFFF = .ok (.map 7 7) ∧ decodeWith OpMap.default 0xCFFFFFFF = .ok (.loadp 7 7) ∧
    decodeWith OpMap.default 0x9FFFFFFF = .ok (.unmap 7) ∧ decodeWith OpMap.default 0xAFFFFFFF = .ok (.out 7) ∧
    decodeWith OpMap.default 0xBFFFFFFF = .ok (.inp 7) := by decide

/-- The last combination of each form. -/
theorem witness_FieldRoundTrip : (15 ≤ 15 ∧ 7 ≤ 7) ∧ (13 ≤ 15 ∧ 7 ≤ 7 ∧ 0x1FFFFFF < 2 ^ 25) := by decide

theorem witness_ExtractIsASlice : extract 0xFFFFFFFF 0 5 = 0 ∧ (0xFFFFFFFF < 2 ^ 32 ∧ 32 ≤ 32) := by decide

theorem witness_UnusedBitsAreIgnored :
    OpMap.default.wf = true ∧
    (topBits 0x3FFFFE49 = topBits 0x30000049 ∧ topBits 0x3FFFFE49 ≠ OpMap.default.opcodeOf .loadv ∧
      topBits 0x3FFFFE49 < 14 ∧ (0x3FFFFE49 : Word).toNat % 2 ^ 9 = (0x30000049 : Word).toNat % 2 ^ 9) ∧
    (topBits 0x800001D1 = topBits 0x80000011 ∧ topBits 0x800001D1 = OpMap.default.opcodeOf .map ∧
      (0x800001D1 : Word).toNat % 2 ^ 6 = (0x80000011 : Word).toNat % 2 ^ 6) ∧
    (topBits 0x900001FA = topBits 0x90000002 ∧ topBits 0x900001FA = OpMap.default.opcodeOf .unmap ∧
      (0x900001FA : Word).toNat % 2 ^ 3 = (0x90000002 : Word).toNat % 2 ^ 3) ∧
    (topBits 0x7FFFFFFF = topBits 0x70000000 ∧ topBits 0x7FFFFFFF = OpMap.default.opcodeOf .halt) := by decide

theorem witness_StepRunsTheDecodedInstruction : About (four 0x3000004B (r123 3 0 0xFFFFFFFF)) (.add 1 1 3) :=
  ⟨by decide, 0x3000004B, by decide, by decide⟩

/-- The last word of segment 0, and one past it. -/
theorem witness_FetchIsCheckedAgainstSegmentZero :
    (one 0x70000000 r0).status = .running ∧ (one 0x70000000 r0).pc.toNat < (one 0x70000000 r0).mem.len 0 ∧
    decodeWith (one 0x70000000 r0).cfg.opmap 0x70000000 = .ok .halt ∧
    (∃ t, step (one 0x70000000 r0) = .next t) ∧
    ({ one 0x70000000 r0 with pc := 1 } : State).mem.len 0 ≤ ({ one 0x70000000 r0 with pc := 1 } : State).pc.toNat :=
  ⟨by decide, by decide, by decide, ⟨_, rfl⟩, by decide⟩

theorem witness_UnassignedOpcodesFault :
    (wordAt (one 0xE0000000 r0) 0 0 = some 0xE0000000 ∧ 14 ≤ topBits 0xE0000000) ∧
    (wordAt (one 0xDFFFFFFF r0) 0 0 = some 0xDFFFFFFF ∧ topBits 0xDFFFFFFF < 14) ∧
    (∃ t, step (one 0xDFFFFFFF r0) = .next t) ∧ (one 0xE0000000 r0).status = .running :=
  ⟨by decide, by decide, ⟨_, rfl⟩, rfl⟩

theorem witness_RunStateIsTerminalOnceEnded :
    (∃ s : State, s.status ≠ .running) ∧ (∃ t, step (one 0x70000000 r0) = .next t ∧ t.status = .halted) ∧
    (∃ t, step (one 0x30000049 r0) = .next t ∧ t.status = .running) ∧
    (∃ t, step (one 0xF0000000 r0) = .next t ∧ t.status = .faulted .invalidOpcode) ∧
    (∃ t, exec (.div 1 2 3) State.reset = .next t ∧ t.status ≠ State.reset.status) ∧
    (∃ t, exec (.add 1 2 3) State.reset = .next t ∧ t.status = State.reset.status) :=
  ⟨⟨{ State.reset with status := .halted }, by decide⟩, has (by decide), has (by decide), has (by decide),
    has (by decide), has (by decide)⟩

theorem witness_FaultsArePrecise :
    ∃ t, step (four 0x100000CA (r123 2 0 7)) = .next t ∧ t.status = .faulted .outOfBoundsAccess :=
  has (by decide)

theorem witness_HandlerResults :
    State.reset.status = .running ∧ (∃ t, exec .halt State.reset = .next t ∧ t.status = .halted) ∧
    (∃ t, exec (.loadp 0 2) (four 0 (r123 0 9 0)) = .next t ∧ t.status = .running) ∧
    (∃ t, exec (.add 1 1 1) State.reset = .next t ∧ t.status = .running) ∧
    (∃ t, exec (.inp 1) (given [.eof] State.reset) = .next t ∧ t.status = .running) ∧
    (∃ t, exec (.unmap 1) State.reset = .next t ∧ t.status = .faulted .invalidSegmentOp) :=
  ⟨rfl, has (by decide), has (by decide), has (by decide), has (by decide), has (by decide)⟩

theorem witness_FaultsComeFromTheirInstructions :
    (∃ t, exec (.div 1 2 3) State.reset = .next t ∧ t.status = .faulted .divisionByZero) ∧
    (∃ t, exec (.loadp 1 2) (four 0 (r123 2 0 0)) = .next t ∧ t.status = .faulted .outOfBoundsAccess) ∧
    (∃ t, exec (.map 1 2) (under (fun c => { c with maxHandles := 1 }) State.reset) = .next t ∧
      t.status = .faulted .resourceExhausted) ∧
    (∃ t, exec (.inp 1) (given [.err] (under (fun c => { c with inputErrorPolicy := .fault }) State.reset)) = .next t ∧
      t.status = .faulted .inputError) :=
  ⟨has (by decide), has (by decide), has (by decide), has (by decide)⟩

theorem witness_ProgramCounterNeverWraps :
    (four 0x70000000 r0).Inv ∧ wordAt (four 0x70000000 r0) 0 0 = some 0x70000000 := by decide

theorem witness_StepIsEnabledAndInputHolds :
    (one 0xB0000001 r0).status = .running ∧ About (one 0xB0000001 r0) (.inp 1) ∧ Unanswered (one 0xB0000001 r0) :=
  ⟨rfl, ⟨by decide, 0xB0000001, by decide, by decide⟩, rfl, rfl⟩

/-- A register that ADD writes, and one it does not read. -/
theorem witness_RegistersReadAndWrittenAsTabled :
    ∃ t, exec (.add 1 2 3) (four 0 (r123 0 1 2)) = .next t ∧ t.readReg 1 ≠ (four 0 (r123 0 1 2)).readReg 1 ∧
      (1 : RegIdx) ∉ readBy (.add 1 2 3) := has (by decide)

theorem witness_RegistersAreZeroAtStartup : ∃ s, launch Config.default [0x70000000] = some s :=
  Option.isSome_iff_exists.1 (by decide)

theorem witness_CmovMovesWhenNonzero :
    (one 0 (r123 9 5 0x80000000)).readReg 3 ≠ 0 ∧ (one 0 (r123 9 5 0)).readReg 3 = 0 := by decide

theorem witness_DivIsFloorOrFaults : (one 0 (r123 9 5 1)).readReg 3 ≠ 0 ∧ (one 0 (r123 9 5 0)).readReg 3 = 0 := by
  decide

/-- The last offset of segment 1, its length, a free handle, an empty segment, a handle out of range. -/
theorem witness_SloadReadsTheAddressedWord :
    sloadAddress 1 2 (four 0 (r123 1 1 0)) = (1, 1) ∧ ValidAddress (four 0 (r123 1 1 0)) 1 1 ∧
    ¬ValidAddress (four 0 r0) 1 2 ∧ ¬ValidAddress (four 0 r0) 2 0 ∧ ¬ValidAddress (four 0 r0) 3 0 ∧
    ¬ValidAddress (four 0 r0) 4 0 :=
  by decide

theorem witness_SstoreWritesOnlyTheAddressedWord :
    (four 0 r0).mem.wf ∧ sstoreAddress 1 2 (four 0 (r123 1 1 7)) = (1, 1) ∧ ValidAddress (four 0 (r123 1 1 7)) 1 1 ∧
    sstoreAddress 1 2 (four 0 (r123 1 2 7)) = (1, 2) ∧ ¬ValidAddress (four 0 (r123 1 2 7)) 1 2 :=
  by decide

/-- A free handle, no free handle, both capacity bounds reached, and the word bound just kept. -/
theorem witness_MapAllocatesZeroedSegment :
    ((four 0 r0).Inv ∧ (four 0 r0).mem.free ≠ [] ∧ ¬OverWords (four 0 r0) (four 0 r0).mem.total 0) ∧
    ((one 0 r0).Inv ∧ (one 0 r0).mem.free = [] ∧ (one 0 r0).mem.count ≠ (one 0 r0).cfg.maxHandles) ∧
    ((under (fun c => { c with maxHandles := 1 }) (one 0 r0)).Inv ∧
      (under (fun c => { c with maxHandles := 1 }) (one 0 r0)).mem.count = 1) ∧
    ((under (fun c => { c with maxWords := some 5 }) (four 0 (r123 2 0 0))).Inv ∧
      OverWords (under (fun c => { c with maxWords := some 5 }) (four 0 (r123 2 0 0))) 4 2 ∧
      ¬OverWords (under (fun c => { c with maxWords := some 5 }) (four 0 (r123 1 0 0))) 4 1 ∧
      (four 0 r0).mem.total = 4) := by
  refine ⟨⟨by decide, by decide, ?_⟩, by decide, by decide, by decide, ⟨5, rfl, by decide⟩, ?_, by decide⟩
  · rintro ⟨b, hb, -⟩; exact nomatch hb
  · rintro ⟨b, hb, h⟩; cases hb; exact absurd h (by decide)

/-- A mapped handle; handle 0, the free handle, one out of range. -/
theorem witness_UnmapFreesTheHandle :
    Mapped (four 0 r0) 1 ∧ Mapped (four 0 r0) 3 ∧ ¬Mapped (four 0 r0) 2 ∧ ¬Mapped (four 0 r0) 4 ∧
    ((four 0 (r123 1 0 0)).readReg 1).toNat = 1 := by decide

/-- Handle 0; a free handle; a bound passed by the copy; a bound just kept. -/
theorem witness_LoadpCopiesAndJumps :
    (four 0 r0).Inv ∧ ((four 0 r0).readReg 1).toNat = 0 ∧
    (((four 0 (r123 2 0 0)).readReg 1).toNat = 2 ∧ ¬Mapped (four 0 (r123 2 0 0)) 2) ∧
    (Mapped (under (fun c => { c with maxWords := some 3 }) (four 0 (r123 1 0 0))) 1 ∧
      OverWords (under (fun c => { c with maxWords := some 3 }) (four 0 (r123 1 0 0))) (4 - 2) 2) ∧
    (Mapped (under (fun c => { c with maxWords := some 4 }) (four 0 (r123 1 0 0))) 1 ∧
      ¬OverWords (under (fun c => { c with maxWords := some 4 }) (four 0 (r123 1 0 0))) (4 - 2) 2) := by
  refine ⟨by decide, by decide, by decide, ⟨by decide, 3, rfl, by decide⟩, by decide, ?_⟩
  rintro ⟨b, hb, h⟩; cases hb; exact absurd h (by decide)

theorem witness_LoadvZeroExtends : (Instr.loadv 6 0x1FFFFFF).wf = true := by decide

/-- Both sides of every edge of the range. -/
theorem witness_OutEmitsScalarValues :
    UnicodeScalar 0 ∧ UnicodeScalar 0xD7FF ∧ ¬UnicodeScalar 0xD800 ∧ ¬UnicodeScalar 0xDFFF ∧ UnicodeScalar 0xE000 ∧
    UnicodeScalar 0x10FFFF ∧ ¬UnicodeScalar 0x110000 ∧ ¬UnicodeScalar 0xFFFFFFFF := by
  decide

theorem witness_InConsumesOneAnswer :
    Unanswered (one 0 r0) ∧ Answered (given [.byte 0xFF] (one 0 r0)) (.byte 0xFF) ∧
    Answered ((one 0 r0).feed []) .eof ∧
    (Answered (given [.err] (one 0 r0)) .err ∧ (given [.err] (one 0 r0)).cfg.inputErrorPolicy = .ignore) ∧
    (Answered (under (fun c => { c with inputErrorPolicy := .fault }) (given [.err] (one 0 r0))) .err ∧
      (under (fun c => { c with inputErrorPolicy := .fault }) (given [.err] (one 0 r0))).cfg.inputErrorPolicy
        = .fault) :=
  ⟨⟨rfl, rfl⟩, .inl ⟨_, rfl⟩, .inr ⟨rfl, rfl⟩, ⟨.inl ⟨_, rfl⟩, rfl⟩, .inl ⟨_, rfl⟩, rfl⟩

theorem witness_OutputHistoryOnlyGrowsByOut :
    About (one 0xA0000001 (r123 72 0 0)) (.out 1) ∧
    ∃ t, step (one 0xA0000001 (r123 72 0 0)) = .next t ∧ t.status = .running ∧ t.out = [72] :=
  ⟨⟨by decide, 0xA0000001, by decide, by decide⟩, has (by decide)⟩

theorem witness_InputAnswersAreConsumedInOrder :
    (∃ t, step (given [.byte 1, .eof] (one 0xB0000001 r0)) = .next t ∧ t.input = [.eof]) ∧
    (∃ t, step ((one 0xB0000001 r0).feed []) = .next t ∧ t.input = [] ∧ t.inp = [.eof]) ∧
    ∃ t, step (one 0x30000049 r0) = .next t ∧ t.inp = [] := ⟨has (by decide), has (by decide), has (by decide)⟩

/-- A state at an IN with one byte to come, and one with none. -/
theorem witness_InputIsAnswersEveryRequest :
    ((one 0xB0000001 r0).feed [0x68]).InputIs [0x68] ∧ ((one 0xB0000001 r0).feed [0x68]).inp = [] ∧
    Reaches ((one 0xB0000001 r0).feed [0x68]) ((one 0xB0000001 r0).feed [0x68]) ∧
    About ((one 0xB0000001 r0).feed [0x68]) (.inp 1) ∧
    ((one 0xB0000001 r0).feed []).InputIs [] ∧ About ((one 0xB0000001 r0).feed []) (.inp 1) :=
  ⟨⟨rfl, rfl⟩, rfl, .start, ⟨by decide, 0xB0000001, by decide, by decide⟩, ⟨rfl, rfl⟩, by decide, 0xB0000001,
    by decide, by decide⟩

theorem witness_HistoriesAreNeverRead : ∃ t, step (one 0xA0000001 (r123 72 0 0)) = .next t := ⟨_, rfl⟩

/-- Program P3's shape: two handles unmapped, two mapped again. -/
theorem witness_FreeListIsLastInFirstOut :
    ∃ s1, exec (.unmap 1) (four 0 (r123 1 3 0)) = .next s1 ∧ s1.status = .running ∧
      ∃ s2, exec (.unmap 2) s1 = .next s2 ∧ s2.status = .running ∧
        ∃ s3, exec (.map 4 3) s2 = .next s3 ∧ s3.status = .running ∧
          ∃ s4, exec (.map 5 3) s3 = .next s4 ∧ s4.status = .running :=
  ⟨_, rfl, rfl, _, rfl, rfl, _, rfl, rfl, _, rfl, rfl⟩

theorem witness_InvariantIsKeptByEveryStep :
    (four 0x20000053 (r123 1 0 7)).Inv ∧ ∃ t, step (four 0x20000053 (r123 1 0 7)) = .next t := ⟨by decide, _, rfl⟩

theorem witness_LaunchMeetsTheInvariant : State.reset.Inv ∧ ∃ s, launch Config.default [0x70000000] = some s :=
  ⟨by decide, Option.isSome_iff_exists.1 (by decide)⟩

theorem witness_LaunchGivesTheResetTable :
    (∃ s, launch { Config.default with opmap := otherMap } [0x70000000] = some s) ∧
    launch { Config.default with maxHandles := 0 } [0x70000000] = none :=
  ⟨Option.isSome_iff_exists.1 (by decide), by decide⟩

theorem witness_SegmentCollectionOnlyGrows :
    ∃ t, step (four 0x20000053 (r123 1 0 7)) = .next t ∧ Mapped (four 0x20000053 (r123 1 0 7)) 1 ∧ Mapped t 1 :=
  has (by decide)

/-- A store to segment 1, and a copy into segment 0. -/
theorem witness_MemoryChangesOnlyByItsWriters :
    (four 0x20000053 (r123 1 0 7)).mem.wf ∧
    (∃ t, step (four 0x20000053 (r123 1 0 7)) = .next t ∧ ValidAddress (four 0x20000053 (r123 1 0 7)) 1 0 ∧
      ValidAddress t 1 0 ∧ t.mem.read 1 0 ≠ (four 0x20000053 (r123 1 0 7)).mem.read 1 0) ∧
    (∃ t, step (four 0xC000000A (r123 1 9 0)) = .next t ∧ ValidAddress (four 0xC000000A (r123 1 9 0)) 0 1 ∧
      ValidAddress t 0 1 ∧ t.mem.read 0 1 ≠ (four 0xC000000A (r123 1 9 0)).mem.read 0 1) :=
  ⟨by decide, has (by decide), has (by decide)⟩

/-- A store to the last word of segment 0, and a copy into segment 0. -/
theorem witness_FetchSeesStoresAtOnce :
    (four 0 r0).Inv ∧
    (∃ t, exec (.sstore 0 1 2) (four 0 (r123 1 7 0)) = .next t ∧ t.status = .running ∧
      ((four 0 (r123 1 7 0)).readReg 0).toNat = 0) ∧
    (∃ t, exec (.loadp 1 2) (four 0 (r123 1 9 0)) = .next t ∧ t.status = .running) :=
  ⟨by decide, has (by decide), has (by decide)⟩

theorem witness_LoadProgramCopyIsByValue :
    (four 0 (r123 1 0 7)).Inv ∧ ((four 0 (r123 1 0 7)).readReg 1).toNat ≠ 0 ∧
    ∃ t, exec (.loadp 1 2) (four 0 (r123 1 0 7)) = .next t ∧ t.status = .running ∧
      seen (·.status) (exec (.sstore 0 2 3) t) = some .running ∧ (t.readReg 0).toNat = 0 ∧
      seen (·.status) (exec (.sstore 1 2 3) t) = some .running ∧ (t.readReg 1).toNat = 1 :=
  ⟨by decide, by decide, has (by decide)⟩

/-- Two states that differ in what the free slot 2 holds, one that steps and one that has ended. -/
theorem witness_FreeSlotContentsAreInvisible :
    AlikeButFreeSlots (four 0x80000011 r0)
      { four 0x80000011 r0 with
        mem := { (four 0x80000011 r0).mem with slots := (four 0x80000011 r0).mem.slots.set 2 (Segment.ofWords [9]) } } ∧
    (∃ t, step (four 0x80000011 r0) = .next t) ∧
    AlikeButFreeSlots (State.reset.fault .inputError) (State.reset.fault .inputError) ∧
    step (State.reset.fault .inputError) = .fault (.alreadyFaulted .inputError) := by
  refine ⟨⟨rfl, rfl, rfl, rfl, rfl, rfl, rfl, rfl, rfl, by decide, by decide, fun h hm => ?_⟩, ⟨_, rfl⟩,
    ⟨rfl, rfl, rfl, rfl, rfl, rfl, rfl, rfl, rfl, rfl, rfl, fun _ _ => rfl⟩, rfl⟩
  have key : ∀ h < 4, h ≠ 2 → (four 0x80000011 r0).mem.segment h =
      Memory.segment { (four 0x80000011 r0).mem with
        slots := (four 0x80000011 r0).mem.slots.set 2 (Segment.ofWords [9]) } h := by decide
  exact key h hm.1 fun e => hm.2 (by rw [e]; decide)

theorem witness_StoreRefinesThePseudocode : (four 0x70000000 r0).mem.wf := by decide

theorem witness_CanonicalStoresAreEqualData :
    (four 0x70000000 r0).mem.wf ∧
    (four 0x70000000 r0).mem.dense = { slots := [[0x70000000, 0], [0, 0x01ABCDEF], [], []], free := [2] } := by decide

theorem witness_StatusPortEncodesTheRunState :
    State.reset.statusPort = (0, 0) ∧ ({ State.reset with status := .halted } : State).statusPort = (1, 0) ∧
    (State.reset.fault .inputError).statusPort = (2, 9) ∧
    (under (fun c => { c with faultCodes := ⟨9, 8, 7, 6, 5, 4, 3, 2, 1⟩ })
      (State.reset.fault .inputError)).statusPort = (2, 1) := by decide

theorem witness_DiagnosticsNameTheFault :
    seen (·.status) (step (one 0xF0000000 r0)) = some (.faulted .invalidOpcode) ∧
    seen (·.status) (step State.reset) = some (.faulted .outOfBoundsFetch) ∧
    (About (four 0x100000CA (r123 2 0 7)) (.sload 3 1 2) ∧
      seen (·.status) (step (four 0x100000CA (r123 2 0 7))) = some (.faulted .outOfBoundsAccess)) ∧
    (About (four 0x20000053 (r123 1 2 7)) (.sstore 1 2 3) ∧
      seen (·.status) (step (four 0x20000053 (r123 1 2 7))) = some (.faulted .outOfBoundsAccess)) ∧
    (About (four 0xC000000A (r123 4 0 0)) (.loadp 1 2) ∧
      seen (·.status) (step (four 0xC000000A (r123 4 0 0))) = some (.faulted .outOfBoundsAccess)) ∧
    (About (four 0x90000001 (r123 2 0 0)) (.unmap 1) ∧
      seen (·.status) (step (four 0x90000001 (r123 2 0 0))) = some (.faulted .invalidSegmentOp)) ∧
    (About (one 0xA0000001 (r123 0xD800 0 0)) (.out 1) ∧
      seen (·.status) (step (one 0xA0000001 (r123 0xD800 0 0))) = some (.faulted .invalidOutputValue)) :=
  ⟨by decide, by decide, ⟨⟨by decide, 0x100000CA, by decide, by decide⟩, by decide⟩,
    ⟨⟨by decide, 0x20000053, by decide, by decide⟩, by decide⟩,
    ⟨⟨by decide, 0xC000000A, by decide, by decide⟩, by decide⟩,
    ⟨⟨by decide, 0x90000001, by decide, by decide⟩, by decide⟩,
    ⟨by decide, 0xA0000001, by decide, by decide⟩, by decide⟩

theorem witness_ImageIsBigEndianWords :
    ([0xD0, 0, 0, 0x48, 0xFF] : List Byte)[4 * 0]? = some 0xD0 ∧ ([0xD0, 0, 0, 0x48, 0xFF] : List Byte)[4 * 0 + 1]? = some 0 ∧
    ([0xD0, 0, 0, 0x48, 0xFF] : List Byte)[4 * 0 + 2]? = some 0 ∧
    ([0xD0, 0, 0, 0x48, 0xFF] : List Byte)[4 * 0 + 3]? = some 0x48 := by decide

theorem witness_LaunchParametersNeverChange : ∃ t, step (one 0x80000012 (r123 0 3 0)) = .next t := ⟨_, rfl⟩

end Sys2Proof.Tests
end

section
/-! SUPPORT. The launch parameters along a run (00_scope.md section 4, R6). -/

namespace Sys2Proof.Machine

/-- No instruction changes a launch parameter: none of the ways an instruction can end writes `cfg`. -/
theorem exec_keeps_cfg {i : Instr} {s t : State} (h : exec i s = .next t) : t.cfg = s.cfg :=
  exec_next_cases (P := fun u => u.cfg = s.cfg) h
    (hold := fun _ _ _ => rfl)
    (fault := fun k _ => s.fault_cfg k)
    (reg := by simp)
    (noreg := fun _ => s.route_advance_cfg)
    (store := by simp)
    (map := by simp)
    (unmap := by simp)
    (loadp := by simp)
    (out := by simp)
    (inp := by simp)
    (inerr := by simp)
    (halt := fun _ => s.route_terminate_cfg)

/-- Settles O51: a step ends in a fault, which keeps `cfg`, or runs an instruction, which keeps it too. -/
theorem launchParametersNeverChange : Obligations.LaunchParametersNeverChange := by
  intro s t h
  exact step_next_cases (P := fun u => u.cfg = s.cfg) (fun k _ => s.fault_cfg k)
    (fun _ _ _ hexec => exec_keeps_cfg hexec) h

end Sys2Proof.Machine
end

section
/-! SUPPORT. The instruction at `pc` and the step that runs it (R70 to R73): the statements' `About` in the model's own
terms, and what a step that answers a next state did. -/

namespace Sys2Proof.Machine

open Sys2Proof.Rules

/-- A fetch succeeds with the word that stands at `pc` in segment 0 (R71). -/
theorem fetch_eq_ok_iff_wordAt {s : State} {w : Word} :
    s.mem.fetch s.pc = .ok w ↔ wordAt s 0 s.pc.toNat = some w := by
  rw [Memory.fetch_eq_ok, wordAt, Segment.getElem?_words]
  split
  · next h => simp [h]
  · next h => simp [h]

theorem about_iff {s : State} {i : Instr} :
    About s i ↔ s.status = .running ∧ ∃ w, s.mem.fetch s.pc = .ok w ∧ decodeWith s.cfg.opmap w = .ok i := by
  simp only [About, fetch_eq_ok_iff_wordAt]

/-- A step of a machine with an instruction at `pc` runs that instruction (R70, R73). -/
theorem step_eq_exec_of_about {s : State} {i : Instr} (h : About s i) : step s = exec i s := by
  obtain ⟨hrun, w, hfetch, hdecode⟩ := about_iff.1 h
  simp only [step, hrun, hfetch, orRaise, hdecode]

/-- A step that answers a next state is a fault entry, never the loader's, or runs the instruction at `pc`. -/
theorem fault_or_exec_of_step {s t : State} (h : step s = .next t) :
    (∃ k, k ≠ .programLoadError ∧ t = s.fault k) ∨ ∃ i, About s i ∧ exec i s = .next t := by
  obtain ⟨hrun, ⟨k, hfetch, rfl⟩ | ⟨_, _, _, _, rfl⟩ | ⟨w, i, hfetch, hdecode, hexec⟩⟩ := step_eq_next.1 h
  · obtain rfl := (Memory.fetch_eq_error.1 hfetch).2
    exact .inl ⟨_, by simp, rfl⟩
  · exact .inl ⟨_, by simp, rfl⟩
  · exact .inr ⟨i, about_iff.2 ⟨hrun, w, hfetch, hdecode⟩, hexec⟩

/-- Only a running machine answers a next state (R14, R76). -/
theorem running_of_step {s t : State} (h : step s = .next t) : s.status = .running := (step_eq_next.1 h).1

/-- A running machine always has a next state (R79, R118). -/
theorem step_next_of_running {s : State} (hrun : s.status = .running) : ∃ t, step s = .next t := by
  cases hfetch : s.mem.fetch s.pc with
  | error k => exact ⟨_, step_eq_next.2 ⟨hrun, .inl ⟨k, hfetch, rfl⟩⟩⟩
  | ok w =>
    cases hdecode : decodeWith s.cfg.opmap w with
    | error e => exact ⟨_, step_eq_next.2 ⟨hrun, .inr (.inl ⟨w, e, hfetch, hdecode, rfl⟩)⟩⟩
    | ok i =>
      obtain ⟨t, ht⟩ := exec_total i s
      exact ⟨t, step_eq_next.2 ⟨hrun, .inr (.inr ⟨w, i, hfetch, hdecode, ht⟩)⟩⟩

/-- A step stops with the model's own fault exactly in a terminal state, and the run state says with which (R76). -/
theorem step_eq_fault {s : State} {f : Fault} : step s = .fault f ↔
    (s.status = .halted ∧ f = .alreadyHalted) ∨ ∃ k, s.status = .faulted k ∧ f = .alreadyFaulted k := by
  cases hs : s.status with
  | halted => simp [step, hs, eq_comm]
  | faulted k => simp [step, hs, eq_comm]
  | running =>
    obtain ⟨t, hnext⟩ := step_next_of_running hs
    simp [hnext]

end Sys2Proof.Machine
end

section
/-! SUPPORT. The invariant along a run (R18, R23, R117): what each state update asks for to keep it. -/

namespace Sys2Proof.Machine

open Sys2Proof.Rules

/-- `isScalar` is the range of rule R102. -/
theorem isScalar_iff {v : Word} : isScalar v = true ↔ UnicodeScalar v.toNat := by
  simp only [isScalar, UnicodeScalar, Bool.and_eq_true, decide_eq_true_eq, Bool.not_eq_true',
    Bool.and_eq_false_imp, decide_eq_false_iff_not, not_and]

/-- A scalar value fits the 21 bits of an output event (R23). -/
theorem toNat_scalarOf {v : Word} (h : isScalar v = true) : (scalarOf v).toNat = v.toNat := by
  have hle : v.toNat ≤ 0x10FFFF := (isScalar_iff.1 h).1
  rw [scalarOf, BitVec.toNat_setWidth]
  omega

/-- What OUT appends is a value an output event may carry (R23). -/
theorem Scalar.ok_scalarOf {v : Word} (h : isScalar v = true) : Scalar.ok (scalarOf v) = true := by
  have hback : (scalarOf v).setWidth 32 = v := by
    apply BitVec.eq_of_toNat_eq
    rw [BitVec.toNat_setWidth, toNat_scalarOf h, Nat.mod_eq_of_lt v.isLt]
  rw [Scalar.ok, hback, h]

variable {s : State}

theorem State.Inv.writeReg (h : s.Inv) (i : RegIdx) (v : Word) : (s.writeReg i v).Inv := h

theorem State.Inv.consume (h : s.Inv) (a : InputAnswer) : (s.consume a).Inv := h

theorem State.Inv.advance (h : s.Inv) : (s.route .advance).Inv := h

theorem State.Inv.jump (h : s.Inv) (target : Word) : (s.route (.jump target)).Inv := h

theorem State.Inv.setMem (h : s.Inv) {m : Memory} (hwf : m.wf) (hstore : m.StoreInv s.cfg) : (s.setMem m).Inv := by
  obtain ⟨hcfg, -, -, hout, hstatus⟩ := h
  exact ⟨hcfg, hwf, hstore, hout, hstatus⟩

theorem State.Inv.emit (h : s.Inv) {v : Word} (hv : isScalar v = true) : (s.emit (scalarOf v)).Inv := by
  obtain ⟨hcfg, hwf, hstore, hout, hstatus⟩ := h
  exact ⟨hcfg, hwf, hstore, by simp [hout, Scalar.ok_scalarOf hv], hstatus⟩

theorem State.Inv.fault (h : s.Inv) {k : FaultKind} (hk : k ≠ .programLoadError) : (s.fault k).Inv := by
  obtain ⟨hcfg, hwf, hstore, hout, -⟩ := h
  exact ⟨hcfg, hwf, hstore, hout, by simpa using hk⟩

theorem State.Inv.terminate (h : s.Inv) : (s.route .terminate).Inv := by
  obtain ⟨hcfg, hwf, hstore, hout, -⟩ := h
  exact ⟨hcfg, hwf, hstore, hout, by simp⟩

/-- Every instruction keeps the invariant: the four that write memory by the store operation they call. -/
theorem exec_keeps_inv {i : Instr} {t : State} (hi : s.Inv) (h : exec i s = .next t) : t.Inv := by
  obtain ⟨-, hwf, hstore, -, -⟩ := id hi
  exact exec_next_cases h
    (hold := fun _ _ _ => hi)
    (fault := fun k hk => hi.fault (by rintro rfl; exact hk))
    (reg := fun a v _ _ => (hi.writeReg a v).advance)
    (noreg := fun _ => hi.advance)
    (store := fun _ _ _ _ _ hw => (hi.setMem (Memory.write_wf hwf hw) (Memory.write_storeInv hstore hw)).advance)
    (map := fun b _ h _ _ ha =>
      ((hi.setMem (Memory.alloc_wf hwf ha) (Memory.alloc_storeInv hstore (BitVec.isLt _) ha)).writeReg b _).advance)
    (unmap := fun _ _ _ hd => (hi.setMem (Memory.dealloc_wf hwf hd) (Memory.dealloc_storeInv hstore hd)).advance)
    (loadp := fun _ _ _ _ hd =>
      (hi.setMem (Memory.dupIntoZero_wf hwf hd) (Memory.dupIntoZero_storeInv hstore hd)).jump _)
    (out := fun _ _ hv => (hi.emit hv).advance)
    (inp := fun c a v _ _ _ => ((hi.consume a).writeReg c v).advance)
    (inerr := fun _ _ _ => (hi.consume .err).advance)
    (halt := fun _ => hi.terminate)

/-- Settles O38: a fault entry changes the run state only, and every instruction keeps the invariant. -/
theorem invariantIsKeptByEveryStep : Obligations.InvariantIsKeptByEveryStep := by
  intro s t hi h
  obtain ⟨k, hk, rfl⟩ | ⟨i, -, hexec⟩ := fault_or_exec_of_step h
  · exact hi.fault hk
  · exact exec_keeps_inv hi hexec

end Sys2Proof.Machine
end

section
/-! SUPPORT. Two runs side by side. `Agree R` says that two answers are both next states, related by `R`. One lemma,
`exec_agree`, says that an instruction takes related states to related states when the relation is kept by every state
update the handlers are made of, and the registers the instruction reads are equal. Statements that something is never
read follow from it: the run state, the histories, a register not in R10's table, the contents of a free slot. -/

namespace Sys2Proof.Machine

/-- Both answers are next states, related by `R`. -/
def Agree (R : State → State → Prop) (x y : Answer) : Prop := ∃ t u, x = .next t ∧ y = .next u ∧ R t u

/-- Two results of a Segment Store operation: related values, or one and the same fault. -/
inductive SameResult {α : Type} (R : α → α → Prop) : Except FaultKind α → Except FaultKind α → Prop
  | ok {a b : α} (h : R a b) : SameResult R (.ok a) (.ok b)
  | error (k : FaultKind) : SameResult R (.error k) (.error k)

/-- Every result has the same result as itself, where the relation is reflexive. -/
theorem SameResult.refl {α : Type} {R : α → α → Prop} (hR : ∀ a, R a a) (x : Except FaultKind α) :
    SameResult R x x := by
  cases x with
  | ok a => exact .ok (hR a)
  | error k => exact .error k

/-- A relation of stores that no operation of the Segment Store can tell from equality (R34 to R38, R71). -/
structure StoreAgrees (M : Memory → Memory → Prop) : Prop where
  fetch {m n : Memory} (h : M m n) (pc : Word) : m.fetch pc = n.fetch pc
  read {m n : Memory} (h : M m n) (a o : Nat) : m.read a o = n.read a o
  write {m n : Memory} (h : M m n) (a o : Nat) (v : Word) : SameResult M (m.write a o v) (n.write a o v)
  alloc {m n : Memory} (h : M m n) (cfg : Config) (len : Nat) :
    SameResult (fun x y => x.1 = y.1 ∧ M x.2 y.2) (m.alloc cfg len) (n.alloc cfg len)
  dealloc {m n : Memory} (h : M m n) (a : Nat) : SameResult M (m.dealloc a) (n.dealloc a)
  dupIntoZero {m n : Memory} (h : M m n) (cfg : Config) (a : Nat) :
    SameResult M (m.dupIntoZero cfg a) (n.dupIntoZero cfg a)

/-- Equal stores answer alike. -/
theorem storeAgrees_eq : StoreAgrees Eq where
  fetch h _ := by rw [h]
  read h _ _ := by rw [h]
  write h _ _ _ := by rw [h]; exact .refl (fun _ => rfl) _
  alloc h _ _ := by rw [h]; exact .refl (fun _ => ⟨rfl, rfl⟩) _
  dealloc h _ := by rw [h]; exact .refl (fun _ => rfl) _
  dupIntoZero h _ _ := by rw [h]; exact .refl (fun _ => rfl) _

/-- A relation of states that gives the handlers the same store (up to `M`), parameters and input answer, and that each
state update keeps. -/
structure UpdatesKeep (M : Memory → Memory → Prop) (R : State → State → Prop) : Prop where
  mem {s u : State} (h : R s u) : M s.mem u.mem
  cfg {s u : State} (h : R s u) : s.cfg = u.cfg
  nextAnswer {s u : State} (h : R s u) : s.nextAnswer = u.nextAnswer
  writeReg {s u : State} (h : R s u) (r : RegIdx) (v : Word) : R (s.writeReg r v) (u.writeReg r v)
  setMem {s u : State} (h : R s u) {m n : Memory} (hm : M m n) : R (s.setMem m) (u.setMem n)
  emit {s u : State} (h : R s u) (v : Scalar) : R (s.emit v) (u.emit v)
  consume {s u : State} (h : R s u) (a : InputAnswer) : R (s.consume a) (u.consume a)
  fault {s u : State} (h : R s u) (k : FaultKind) : R (s.fault k) (u.fault k)
  route {s u : State} (h : R s u) (r : Routing) : R (s.route r) (u.route r)

variable {M : Memory → Memory → Prop} {R : State → State → Prop} {s u : State}

theorem Agree.next (h : R s u) : Agree R (.next s) (.next u) := ⟨s, u, rfl, rfl, h⟩

theorem Agree.elim {x y : Answer} {t : State} (h : Agree R x y) (hx : x = .next t) : ∃ v, y = .next v ∧ R t v := by
  obtain ⟨t', v, rfl, rfl, hR⟩ := h
  cases hx
  exact ⟨v, rfl, hR⟩

theorem agree_finish (hR : UpdatesKeep M R) (h : R s u) (r : Routing) : Agree R (finish r s) (finish r u) :=
  .next (hR.route h r)

theorem agree_raise (hR : UpdatesKeep M R) (h : R s u) (k : FaultKind) : Agree R (raise k s) (raise k u) :=
  .next (hR.fault h k)

/-- Same results gone on with, or the same fault taken, agree. -/
theorem agree_orRaise {α : Type} {T : α → α → Prop} {x y : Except FaultKind α} {f g : α → Answer}
    (hR : UpdatesKeep M R) (h : R s u) (hxy : SameResult T x y) (hfg : ∀ a b, T a b → Agree R (f a) (g b)) :
    Agree R (orRaise x s f) (orRaise y u g) := by
  cases hxy with
  | ok hab => exact hfg _ _ hab
  | error k => exact agree_raise hR h k

theorem execCmov_agree (hR : UpdatesKeep M R) (h : R s u) {a b c : RegIdx} (hb : s.readReg b = u.readReg b)
    (hc : s.readReg c = u.readReg c) : Agree R (execCmov a b c s) (execCmov a b c u) := by
  unfold execCmov
  rw [hb, hc]
  split
  · exact agree_finish hR (hR.writeReg h a _) _
  · exact agree_finish hR h _

theorem execOut_agree (hR : UpdatesKeep M R) (h : R s u) {c : RegIdx} (hc : s.readReg c = u.readReg c) :
    Agree R (execOut c s) (execOut c u) := by
  unfold execOut
  rw [hc]
  split
  · exact agree_finish hR (hR.emit h _) _
  · exact agree_raise hR h _

theorem execIn_agree (hR : UpdatesKeep M R) (h : R s u) (c : RegIdx) : Agree R (execIn c s) (execIn c u) := by
  unfold execIn
  rw [hR.nextAnswer h, hR.cfg h]
  split
  · exact .next h
  · exact agree_finish hR (hR.writeReg (hR.consume h _) c _) _
  · exact agree_finish hR (hR.writeReg (hR.consume h _) c _) _
  · split
    · exact agree_finish hR (hR.consume h _) _
    · exact agree_raise hR h _

/-- An instruction takes related states to related states, where the registers it reads are equal. -/
theorem exec_agree (hM : StoreAgrees M) (hR : UpdatesKeep M R) (h : R s u) {i : Instr}
    (hread : ∀ r ∈ readBy i, s.readReg r = u.readReg r) : Agree R (exec i s) (exec i u) := by
  have hmem := hR.mem h
  cases i with simp only [readBy, List.forall_mem_cons, List.not_mem_nil, false_implies, implies_true, and_true] at hread
  | cmov a b c => exact execCmov_agree hR h hread.1 hread.2
  | sload a b c =>
    simp only [exec, execSload, sloadAddress, State.dataAddress, hread, hM.read hmem]
    exact agree_orRaise hR h (.refl (R := Eq) (fun _ => rfl) _) fun v _ hv => hv ▸ agree_finish hR (hR.writeReg h a v) _
  | sstore a b c =>
    simp only [exec, execSstore, sstoreAddress, State.dataAddress, hread]
    exact agree_orRaise hR h (hM.write hmem _ _ _) fun _ _ hm => agree_finish hR (hR.setMem h hm) _
  | add a b c | mul a b c | nand a b c =>
    simp only [exec, execAdd, execMul, execNand, hread]
    exact agree_finish hR (hR.writeReg h a _) _
  | div a b c =>
    simp only [exec, execDiv, hread]
    exact agree_orRaise hR h (.refl (R := Eq) (fun _ => rfl) _) fun q _ hq => hq ▸ agree_finish hR (hR.writeReg h a q) _
  | halt => exact agree_finish hR h _
  | map b c =>
    simp only [exec, execMap, hread, hR.cfg h]
    exact agree_orRaise hR h (hM.alloc hmem _ _) fun x y ⟨hh, hm⟩ =>
      hh ▸ agree_finish hR (hR.writeReg (hR.setMem h hm) b _) _
  | unmap c =>
    simp only [exec, execUnmap, hread]
    exact agree_orRaise hR h (hM.dealloc hmem _) fun _ _ hm => agree_finish hR (hR.setMem h hm) _
  | out c => exact execOut_agree hR h hread
  | inp c => exact execIn_agree hR h c
  | loadp b c =>
    simp only [exec, execLoadp, hread, hR.cfg h]
    exact agree_orRaise hR h (hM.dupIntoZero hmem _ _) fun _ _ hm => agree_finish hR (hR.setMem h hm) _
  | loadv rd value => exact agree_finish hR (hR.writeReg h rd _) _

/-- A step takes related running states to related states, where all registers and `pc` are equal. -/
theorem step_agree (hM : StoreAgrees M) (hR : UpdatesKeep M R) (h : R s u) (hrun : s.status = .running)
    (hstatus : s.status = u.status) (hpc : s.pc = u.pc) (hregs : ∀ r, s.readReg r = u.readReg r) :
    Agree R (step s) (step u) := by
  simp only [step, hrun, ← hstatus, ← hpc, ← hM.fetch (hR.mem h), ← hR.cfg h]
  refine agree_orRaise hR h (.refl (R := Eq) (fun _ => rfl) _) fun w _ hw => hw ▸ ?_
  split
  · exact exec_agree hM hR h fun r _ => hregs r
  · exact agree_raise hR h _

end Sys2Proof.Machine
end

section
/-! SUPPORT. The contents of free slots (R18 (e), R26): stores alike but for them answer every operation alike. -/

namespace Sys2Proof.Machine

open Sys2Proof.Rules

/-- Two stores alike but for what the slots of free handles hold. Segment 0 is named apart, since a fetch makes no
mapped-check (R71). -/
structure Memory.AlikeButFree (m n : Memory) : Prop where
  free : m.free = n.free
  count : m.count = n.count
  zero : m.segment 0 = n.segment 0
  segment : ∀ h, m.mapped h = true → m.segment h = n.segment h

/-- Replacing a slot changes that segment, where the slot exists. -/
theorem Memory.segment_set_eq (m : Memory) (h : Nat) (free : List Nat) (g : Segment) (k : Nat) :
    Memory.segment ⟨m.slots.set h g, free⟩ k = if k = h ∧ h < m.count then g else m.segment k := by
  by_cases hlt : h < m.count
  · simp [Memory.segment_set hlt, hlt]
  · have hset : m.slots.set h g = m.slots := List.set_eq_of_length_le (Nat.not_lt.1 hlt)
    simp [hset, hlt, Memory.segment]

namespace Memory.AlikeButFree

variable {m n : Memory}

theorem mapped (h : m.AlikeButFree n) (k : Nat) : m.mapped k = n.mapped k := by
  simp only [Memory.mapped, h.free, h.count]

theorem len (h : m.AlikeButFree n) {k : Nat} (hk : m.mapped k = true) : m.len k = n.len k :=
  congrArg Segment.len (h.segment k hk)

theorem len_zero (h : m.AlikeButFree n) : m.len 0 = n.len 0 := congrArg Segment.len h.zero

theorem valid (h : m.AlikeButFree n) (k o : Nat) : m.valid k o = n.valid k o := by
  cases hk : m.mapped k
  · simp [Memory.valid, hk, ← h.mapped k]
  · exact Memory.valid_congr (h.mapped k) (h.len hk) o

/-- The words in use are those of mapped segments (R32). -/
theorem total (h : m.AlikeButFree n) : m.total = n.total := by
  have hmapped : m.mapped = n.mapped := funext h.mapped
  have hlen : ∀ k ∈ (List.range m.count).filter m.mapped, m.len k = n.len k := fun k hk =>
    h.len (List.mem_filter.1 hk).2
  rw [Memory.total, List.map_congr_left hlen, h.count, hmapped, ← Memory.total]

/-- One segment put into both stores, where no other handle stops being free. -/
theorem set (h : m.AlikeButFree n) (a : Nat) (g : Segment) {free : List Nat}
    (hfree : ∀ k, k ≠ a → k ∉ free → k ∉ m.free) :
    Memory.AlikeButFree ⟨m.slots.set a g, free⟩ ⟨n.slots.set a g, free⟩ where
  free := rfl
  count := by simpa [Memory.count] using h.count
  zero := by simp only [Memory.segment_set_eq, h.count, h.zero]
  segment k hk := by
    simp only [Memory.mapped_iff, Memory.count, List.length_set] at hk
    obtain ⟨hlt, hk⟩ := hk
    simp only [Memory.segment_set_eq, ← h.count]
    split
    · rfl
    · next hne =>
      have hka : k ≠ a := fun e => hne ⟨e, e ▸ hlt⟩
      exact h.segment k (Memory.mapped_iff.2 ⟨hlt, hfree k hka hk⟩)

theorem setSlot (h : m.AlikeButFree n) (a : Nat) (g : Segment) : (m.setSlot a g).AlikeButFree (n.setSlot a g) := by
  have hset := h.set a g (free := m.free) fun _ _ hk => hk
  simpa only [Memory.setSlot, ← h.free] using hset

/-- One slot more in both stores. -/
theorem append (h : m.AlikeButFree n) (g : Segment) :
    Memory.AlikeButFree ⟨m.slots ++ [g], m.free⟩ ⟨n.slots ++ [g], n.free⟩ where
  free := h.free
  count := by simpa [Memory.count] using h.count
  zero := by simp only [Memory.segment_append, h.count, h.zero]
  segment k hk := by
    simp only [Memory.mapped_iff, Memory.count, List.length_append, List.length_singleton] at hk
    obtain ⟨hlt, hk⟩ := hk
    simp only [Memory.segment_append, ← h.count]
    split
    · rfl
    · next hne => exact h.segment k (Memory.mapped_iff.2 ⟨by unfold Memory.count at hne ⊢; omega, hk⟩)

theorem read_eq (h : m.AlikeButFree n) (a o : Nat) : m.read a o = n.read a o := by
  unfold Memory.read
  rw [← h.valid]
  split
  · next hv => rw [h.segment a (Memory.mapped_iff.2 (Memory.valid_iff.1 hv).1)]
  · rfl

theorem write_same (h : m.AlikeButFree n) (a o : Nat) (v : Word) :
    SameResult AlikeButFree (m.write a o v) (n.write a o v) := by
  unfold Memory.write
  rw [← h.valid]
  split
  · next hv =>
    rw [h.segment a (Memory.mapped_iff.2 (Memory.valid_iff.1 hv).1)]
    exact .ok (h.setSlot a _)
  · exact .error _

theorem alloc_same (h : m.AlikeButFree n) (cfg : Config) (len : Nat) :
    SameResult (fun x y => x.1 = y.1 ∧ x.2.AlikeButFree y.2) (m.alloc cfg len) (n.alloc cfg len) := by
  unfold Memory.alloc
  rw [← h.free, ← h.count, ← h.total]
  split
  · exact .error _
  · split
    · exact .error _
    · split
      · next a rest hf => exact .ok ⟨rfl, h.set a _ fun k hka hk => by simp [hf, hka, hk]⟩
      · exact .ok ⟨rfl, by simpa only [← h.free] using h.append _⟩

theorem dealloc_same (h : m.AlikeButFree n) (a : Nat) : SameResult AlikeButFree (m.dealloc a) (n.dealloc a) := by
  unfold Memory.dealloc
  rw [← h.free, ← h.count]
  split
  · exact .error _
  · exact .ok (h.set a _ fun k _ hk => fun hk' => hk (List.mem_cons_of_mem a hk'))

theorem dupIntoZero_same (h : m.AlikeButFree n) (cfg : Config) (a : Nat) :
    SameResult AlikeButFree (m.dupIntoZero cfg a) (n.dupIntoZero cfg a) := by
  unfold Memory.dupIntoZero
  rw [← h.mapped, ← h.total, ← h.len_zero]
  split
  · exact .ok h
  · split
    · exact .error _
    · next hmapped =>
      have ha : m.mapped a = true := by simpa using hmapped
      rw [← h.len ha, ← h.segment a ha]
      split
      · exact .error _
      · exact .ok (h.setSlot 0 _)

end Memory.AlikeButFree

/-- No operation of the Segment Store observes what a free slot holds (R26). -/
theorem storeAgrees_alikeButFree : StoreAgrees Memory.AlikeButFree where
  fetch h pc := by simp only [Memory.fetch, Memory.len, h.zero]
  read h := h.read_eq
  write h := h.write_same
  alloc h := h.alloc_same
  dealloc h := h.dealloc_same
  dupIntoZero h := h.dupIntoZero_same

/-- States alike but for free slots: one is the other with a store alike in that sense. -/
theorem alikeButFreeSlots_iff {s t : State} :
    AlikeButFreeSlots s t ↔ ∃ n, s.mem.AlikeButFree n ∧ t = s.setMem n := by
  constructor
  · rintro ⟨hregs, hpc, hstatus, hout, hinp, hinput, hend, hcfg, hfree, hcount, hzero, hseg⟩
    exact ⟨t.mem, ⟨hfree, hcount, hzero, fun h hh => hseg h (Memory.mapped_iff.1 hh)⟩,
      State.ext_fields hregs.symm hpc.symm hstatus.symm rfl hout.symm hinp.symm hinput.symm hend.symm hcfg.symm⟩
  · rintro ⟨n, ⟨hfree, hcount, hzero, hseg⟩, rfl⟩
    exact ⟨rfl, rfl, rfl, rfl, rfl, rfl, rfl, rfl, hfree, hcount, hzero, fun h hh => hseg h (Memory.mapped_iff.2 hh)⟩

/-- An update that neither reads nor writes the store keeps the states alike. -/
theorem alikeButFreeSlots_update {s u : State} (h : AlikeButFreeSlots s u) (f : State → State)
    (hcomm : ∀ n, f (s.setMem n) = (f s).setMem n) (hmem : (f s).mem = s.mem) : AlikeButFreeSlots (f s) (f u) := by
  obtain ⟨n, hn, rfl⟩ := alikeButFreeSlots_iff.1 h
  exact alikeButFreeSlots_iff.2 ⟨n, hmem ▸ hn, hcomm n⟩

theorem updatesKeep_alikeButFreeSlots : UpdatesKeep Memory.AlikeButFree AlikeButFreeSlots where
  mem h := by obtain ⟨n, hn, rfl⟩ := alikeButFreeSlots_iff.1 h; exact hn
  cfg h := by obtain ⟨n, -, rfl⟩ := alikeButFreeSlots_iff.1 h; rfl
  nextAnswer h := by obtain ⟨n, -, rfl⟩ := alikeButFreeSlots_iff.1 h; rfl
  writeReg h r v := alikeButFreeSlots_update h (·.writeReg r v) (fun _ => rfl) rfl
  setMem h _ n hm := by obtain ⟨n', -, rfl⟩ := alikeButFreeSlots_iff.1 h; exact alikeButFreeSlots_iff.2 ⟨n, hm, rfl⟩
  emit h v := alikeButFreeSlots_update h (·.emit v) (fun _ => rfl) rfl
  consume h a := alikeButFreeSlots_update h (·.consume a) (fun _ => rfl) rfl
  fault h k := alikeButFreeSlots_update h (·.fault k) (fun _ => rfl) rfl
  route h r := alikeButFreeSlots_update h (·.route r) (fun _ => by cases r <;> rfl) (by cases r <;> rfl)

/-- Settles O45: equal registers, `pc` and run state, and a store that answers every operation alike. -/
theorem freeSlotContentsAreInvisible : Obligations.FreeSlotContentsAreInvisible := by
  intro s t h
  obtain ⟨n, hn, rfl⟩ := alikeButFreeSlots_iff.1 h
  constructor
  · intro s' hs'
    exact (step_agree storeAgrees_alikeButFree updatesKeep_alikeButFreeSlots h (running_of_step hs') rfl rfl
      fun _ => rfl).elim hs'
  · intro f hf
    exact step_eq_fault.2 ((step_eq_fault (s := s)).1 hf)

end Sys2Proof.Machine
end

section
/-! SUPPORT. What no instruction reads: the run state (R14), the console histories (R20, R21), and the registers that
rule R10's table does not list as read. Each follows from `exec_agree`. -/

namespace Sys2Proof.Machine

open Sys2Proof.Rules

/-! ### The console histories -/

theorem updatesKeep_withOlder (o : List Scalar) (j : List InputAnswer) :
    UpdatesKeep Eq (fun s u => u = withOlder o j s) where
  mem h := by rw [h]; rfl
  cfg h := by rw [h]; rfl
  nextAnswer h := by rw [h]; rfl
  writeReg h _ _ := by rw [h]; rfl
  setMem h _ _ hm := by rw [h, hm]; rfl
  emit h v := by rw [h]; simp [withOlder, State.emit]
  consume h a := by rw [h]; simp [withOlder, State.consume]
  fault h _ := by rw [h]; rfl
  route h r := by rw [h]; cases r <;> rfl

/-- Settles O36: every update commutes with putting older histories before the state's own. -/
theorem historiesAreNeverRead : Obligations.HistoriesAreNeverRead := by
  intro s t o j h
  obtain ⟨u, hu, rfl⟩ := (step_agree storeAgrees_eq (updatesKeep_withOlder o j) rfl (running_of_step h) rfl rfl
    fun _ => rfl).elim h
  exact hu

/-! ### The run state -/

/-- `u` is `s` but for the run state, which is the same, or still the one each began with, `x` and `y`. -/
def AlikeButStatus (x y : Status) (s u : State) : Prop :=
  ∃ z, u = { s with status := z } ∧ (z = s.status ∨ (s.status = x ∧ z = y))

theorem updatesKeep_alikeButStatus (x y : Status) : UpdatesKeep Eq (AlikeButStatus x y) where
  mem h := by obtain ⟨z, rfl, -⟩ := h; rfl
  cfg h := by obtain ⟨z, rfl, -⟩ := h; rfl
  nextAnswer h := by obtain ⟨z, rfl, -⟩ := h; rfl
  writeReg h _ _ := by obtain ⟨z, rfl, hz⟩ := h; exact ⟨z, rfl, hz⟩
  setMem h _ _ hm := by obtain ⟨z, rfl, hz⟩ := h; exact ⟨z, by rw [hm]; rfl, hz⟩
  emit h _ := by obtain ⟨z, rfl, hz⟩ := h; exact ⟨z, rfl, hz⟩
  consume h _ := by obtain ⟨z, rfl, hz⟩ := h; exact ⟨z, rfl, hz⟩
  fault h k := by obtain ⟨z, rfl, -⟩ := h; exact ⟨.faulted k, rfl, .inl rfl⟩
  route h r := by
    obtain ⟨z, rfl, hz⟩ := h
    cases r with
    | advance => exact ⟨z, rfl, hz⟩
    | jump target => exact ⟨z, rfl, hz⟩
    | terminate => exact ⟨.halted, rfl, .inl rfl⟩

/-- An instruction keeps the run state, sets it to `Halted` if it is HALT, or takes a fault. -/
theorem exec_status {i : Instr} {s t : State} (h : exec i s = .next t) :
    t.status = s.status ∨ (t.status = .halted ∧ i = .halt) ∨ ∃ k, t.status = .faulted k :=
  exec_next_cases (P := fun u => u.status = s.status ∨ (u.status = .halted ∧ i = .halt) ∨ ∃ k, u.status = .faulted k) h
    (hold := fun _ _ _ => .inl rfl)
    (fault := fun k _ => .inr (.inr ⟨k, rfl⟩))
    (reg := fun _ _ _ _ => .inl rfl)
    (noreg := fun _ => .inl rfl)
    (store := fun _ _ _ _ _ _ => .inl rfl)
    (map := fun _ _ _ _ _ _ => .inl rfl)
    (unmap := fun _ _ _ _ => .inl rfl)
    (loadp := fun _ _ _ _ _ => .inl rfl)
    (out := fun _ _ _ => .inl rfl)
    (inp := fun _ _ _ _ _ _ => .inl rfl)
    (inerr := fun _ _ _ => .inl rfl)
    (halt := fun hi => .inr (.inl ⟨rfl, hi⟩))

/-- A step ends running, halted by the HALT at `pc`, or faulted (R14, R76). -/
theorem step_status {s t : State} (h : step s = .next t) :
    t.status = .running ∨ (t.status = .halted ∧ About s .halt) ∨ ∃ k, t.status = .faulted k := by
  obtain ⟨k, -, rfl⟩ | ⟨i, hi, hexec⟩ := fault_or_exec_of_step h
  · exact .inr (.inr ⟨k, rfl⟩)
  · obtain hs | ⟨hs, rfl⟩ | hs := exec_status hexec
    · exact .inl (hs.trans (running_of_step h))
    · exact .inr (.inl ⟨hs, hi⟩)
    · exact .inr (.inr hs)

/-- Settles O12: only a running machine steps, and no handler reads the run state. -/
theorem runStateIsTerminalOnceEnded : Obligations.RunStateIsTerminalOnceEnded := by
  refine ⟨rfl, fun s t hs h => hs (running_of_step h), fun s t h => step_status h, fun i s t x h => ?_⟩
  have hstart : AlikeButStatus s.status x s { s with status := x } := ⟨x, rfl, .inr ⟨rfl, rfl⟩⟩
  obtain ⟨u, hu, z, rfl, hz⟩ :=
    (exec_agree storeAgrees_eq (updatesKeep_alikeButStatus s.status x) hstart fun _ _ => rfl).elim h
  exact ⟨_, hu, rfl, rfl, rfl, rfl, rfl, rfl, rfl, rfl, hz⟩

/-! ### The registers -/

theorem writeReg_writeReg_self (s : State) (r : RegIdx) (v w : Word) :
    (s.writeReg r v).writeReg r w = s.writeReg r w := by
  simp [State.writeReg]

theorem writeReg_comm (s : State) {q r : RegIdx} (h : q ≠ r) (v w : Word) :
    (s.writeReg q v).writeReg r w = (s.writeReg r w).writeReg q v := by
  have hval : (q : Nat) ≠ r := fun e => h (Fin.ext e)
  simp [State.writeReg, Vector.set_comm _ _ hval]

/-- `u` is `s` but for register `r`, which is the same, or still the one each began with, `x` and `y`. -/
def AlikeButReg (r : RegIdx) (x y : Word) (s u : State) : Prop :=
  u = s ∨ (u = s.writeReg r y ∧ s.readReg r = x)

theorem updatesKeep_alikeButReg (r : RegIdx) (x y : Word) : UpdatesKeep Eq (AlikeButReg r x y) where
  mem h := by obtain rfl | ⟨rfl, -⟩ := h <;> rfl
  cfg h := by obtain rfl | ⟨rfl, -⟩ := h <;> rfl
  nextAnswer h := by obtain rfl | ⟨rfl, -⟩ := h <;> rfl
  writeReg {s u} h q w := by
    obtain rfl | ⟨rfl, hx⟩ := h
    · exact .inl rfl
    · by_cases hq : r = q
      · subst hq
        exact .inl (writeReg_writeReg_self s r y w)
      · exact .inr ⟨writeReg_comm s hq y w, by rw [State.readReg_writeReg_of_ne s hq, hx]⟩
  setMem h _ _ hm := by
    obtain rfl | ⟨rfl, hx⟩ := h
    · exact .inl (by rw [hm])
    · exact .inr ⟨by rw [hm]; rfl, hx⟩
  emit h _ := by obtain rfl | ⟨rfl, hx⟩ := h; exacts [.inl rfl, .inr ⟨rfl, hx⟩]
  consume h _ := by obtain rfl | ⟨rfl, hx⟩ := h; exacts [.inl rfl, .inr ⟨rfl, hx⟩]
  fault h _ := by obtain rfl | ⟨rfl, hx⟩ := h; exacts [.inl rfl, .inr ⟨rfl, hx⟩]
  route h a := by
    obtain rfl | ⟨rfl, hx⟩ := h
    · exact .inl rfl
    · exact .inr ⟨by cases a <;> rfl, by cases a <;> exact hx⟩

theorem eq_of_readReg_writeReg_ne {s : State} {q r : RegIdx} {v : Word} (h : (s.writeReg q v).readReg r ≠ s.readReg r) :
    q = r := by
  by_contra hne
  exact h (s.readReg_writeReg_of_ne (Ne.symm hne) v)

/-- A register that an instruction changed is the one of R10's table. -/
theorem written_of_readReg_ne {i : Instr} {s t : State} {r : RegIdx} (h : exec i s = .next t) :
    t.readReg r ≠ s.readReg r → written i = some r :=
  exec_next_cases (P := fun u => u.readReg r ≠ s.readReg r → written i = some r) h
    (hold := fun _ _ _ hr => absurd rfl hr)
    (fault := fun _ _ hr => absurd rfl hr)
    (reg := fun _ _ ha _ hr => ha.trans (congrArg some (eq_of_readReg_writeReg_ne hr)))
    (noreg := fun _ hr => absurd rfl hr)
    (store := fun _ _ _ _ _ _ hr => absurd rfl hr)
    (map := fun _ _ _ m hi _ hr => hi ▸ congrArg some (eq_of_readReg_writeReg_ne (s := s.setMem m) hr))
    (unmap := fun _ _ _ _ hr => absurd rfl hr)
    (loadp := fun _ _ _ _ _ hr => absurd rfl hr)
    (out := fun _ _ _ hr => absurd rfl hr)
    (inp := fun _ a _ hi _ _ hr => hi ▸ congrArg some (eq_of_readReg_writeReg_ne (s := s.consume a) hr))
    (inerr := fun _ _ _ hr => absurd rfl hr)
    (halt := fun _ hr => absurd rfl hr)

/-- CMOV and DIV write nothing when `x[C]` is 0 (R80, R83). -/
theorem readReg_kept_of_zero {i : Instr} {a b c : RegIdx} {s t : State} (hi : i = .cmov a b c ∨ i = .div a b c)
    (hc : s.readReg c = 0) (h : exec i s = .next t) (r : RegIdx) : t.readReg r = s.readReg r := by
  obtain rfl | rfl := hi
  · obtain ⟨hne, -⟩ | ⟨-, rfl⟩ := execCmov_next.1 h
    · exact absurd hc hne
    · rfl
  · obtain ⟨hne, -⟩ | ⟨-, rfl⟩ := execDiv_next.1 h
    · exact absurd hc hne
    · rfl

/-- Where IN changes a register it took an answer that is no read error (R104, R106). -/
theorem answered_of_readReg_ne {c r : RegIdx} {s t : State} (h : exec (.inp c) s = .next t)
    (hr : t.readReg r ≠ s.readReg r) : ∃ a, Answered s a ∧ a ≠ .err := by
  obtain ⟨-, rfl⟩ | ⟨b, hb, -⟩ | ⟨heof, -⟩ | ⟨-, -, rfl⟩ | ⟨-, -, rfl⟩ := execIn_next.1 h
  · exact absurd rfl hr
  · exact ⟨.byte b, State.nextAnswer_eq_some.1 hb, by simp⟩
  · exact ⟨.eof, State.nextAnswer_eq_some.1 heof, by simp⟩
  · exact absurd rfl hr
  · exact absurd rfl hr

/-- Settles O18: the register written by cases on what the instruction did, the registers read by `exec_agree`. -/
theorem registersReadAndWrittenAsTabled : Obligations.RegistersReadAndWrittenAsTabled := by
  refine ⟨fun s r q v => by simp only [State.readReg_writeReg, eq_comm], fun i s t h => ⟨fun r hr => ⟨?_, ?_, ?_⟩, ?_⟩⟩
  · exact written_of_readReg_ne h hr
  · exact fun a b c hi hc => hr (readReg_kept_of_zero hi hc h r)
  · rintro c rfl
    exact answered_of_readReg_ne h hr
  · intro r v hread
    have hstart : AlikeButReg r (s.readReg r) v s (s.writeReg r v) := .inr ⟨rfl, rfl⟩
    obtain ⟨u, hu, halike⟩ := (exec_agree storeAgrees_eq (updatesKeep_alikeButReg r (s.readReg r) v) hstart
      fun q hq => (s.readReg_writeReg_of_ne (fun e : q = r => hread (e ▸ hq)) v).symm).elim h
    obtain rfl | ⟨rfl, hx⟩ := halike
    · exact ⟨u, hu, rfl, rfl, rfl, rfl, rfl, rfl, rfl, rfl, fun _ _ => rfl, .inl rfl⟩
    · exact ⟨_, hu, rfl, rfl, rfl, rfl, rfl, rfl, rfl, rfl, fun q hq => t.readReg_writeReg_of_ne hq v,
        .inr ⟨t.readReg_writeReg_self r v, hx⟩⟩

end Sys2Proof.Machine
end

section
/-! SUPPORT. The console streams along a run (R20, R21, R104, R107). -/

namespace Sys2Proof.Machine

open Sys2Proof.Rules

/-! ### The output history -/

/-- The output history is kept, or OUT appended its scalar value. -/
theorem exec_out {i : Instr} {s t : State} (h : exec i s = .next t) :
    t.out = s.out ∨ ∃ c, i = .out c ∧ isScalar (s.readReg c) = true ∧ t.out = s.out ++ [scalarOf (s.readReg c)] :=
  exec_next_cases (P := fun u => u.out = s.out ∨ ∃ c, i = .out c ∧ isScalar (s.readReg c) = true ∧
      u.out = s.out ++ [scalarOf (s.readReg c)]) h
    (hold := fun _ _ _ => .inl rfl)
    (fault := fun _ _ => .inl rfl)
    (reg := fun _ _ _ _ => .inl rfl)
    (noreg := fun _ => .inl rfl)
    (store := fun _ _ _ _ _ _ => .inl rfl)
    (map := fun _ _ _ _ _ _ => .inl rfl)
    (unmap := fun _ _ _ _ => .inl rfl)
    (loadp := fun _ _ _ _ _ => .inl rfl)
    (out := fun c hi hc => .inr ⟨c, hi, hc, rfl⟩)
    (inp := fun _ _ _ _ _ _ => .inl rfl)
    (inerr := fun _ _ _ => .inl rfl)
    (halt := fun _ => .inl rfl)

/-- Settles O34: OUT is the one instruction that writes the history, and it does so unless it faults. -/
theorem outputHistoryOnlyGrowsByOut : Obligations.OutputHistoryOnlyGrowsByOut := by
  refine ⟨rfl, fun s t h => ?_, fun s t c habout h hrun => ?_⟩
  · obtain ⟨k, -, rfl⟩ | ⟨i, habout, hexec⟩ := fault_or_exec_of_step h
    · exact .inl rfl
    · obtain hkept | ⟨c, rfl, hc, hout⟩ := exec_out hexec
      · exact .inl hkept
      · exact .inr ⟨c, _, habout, toNat_scalarOf hc, toNat_scalarOf hc ▸ isScalar_iff.1 hc, hout⟩
  · rw [step_eq_exec_of_about habout] at h
    obtain ⟨hc, rfl⟩ | ⟨-, rfl⟩ := execOut_next.1 h
    · exact ⟨_, toNat_scalarOf hc, rfl⟩
    · exact nomatch hrun

/-! ### The input answers -/

/-- From `s` to `t` the oracle's present answer was taken and recorded. -/
def TookAnswer (s t : State) : Prop :=
  ∃ a, t.inp = s.inp ++ [a] ∧ (s.input = a :: t.input ∨ (s.input = [] ∧ t.input = [] ∧ s.inputEnd = some a))

/-- A state that consumed the present answer took it. -/
theorem tookAnswer_of_consume {s t : State} {a : InputAnswer} (ha : s.nextAnswer = some a)
    (hinput : t.input = (s.consume a).input) (hinp : t.inp = (s.consume a).inp) : TookAnswer s t := by
  refine ⟨a, hinp, ?_⟩
  obtain ⟨rest, hrest⟩ | ⟨hnil, hend⟩ := State.nextAnswer_eq_some.1 ha
  · exact .inl (by rw [hinput, State.consume_input, hrest, List.tail_cons])
  · exact .inr ⟨hnil, by rw [hinput, State.consume_input, hnil, List.tail_nil], hend⟩

/-- The answers are kept, or IN took the present one; what follows the waiting ones is kept. -/
theorem exec_input {i : Instr} {s t : State} (h : exec i s = .next t) :
    t.inputEnd = s.inputEnd ∧ ((t.input = s.input ∧ t.inp = s.inp) ∨ ((∃ c, i = .inp c) ∧ TookAnswer s t)) :=
  exec_next_cases (P := fun u => u.inputEnd = s.inputEnd ∧
      ((u.input = s.input ∧ u.inp = s.inp) ∨ ((∃ c, i = .inp c) ∧ TookAnswer s u))) h
    (hold := fun _ _ _ => ⟨rfl, .inl ⟨rfl, rfl⟩⟩)
    (fault := fun _ _ => ⟨rfl, .inl ⟨rfl, rfl⟩⟩)
    (reg := fun _ _ _ _ => ⟨rfl, .inl ⟨rfl, rfl⟩⟩)
    (noreg := fun _ => ⟨rfl, .inl ⟨rfl, rfl⟩⟩)
    (store := fun _ _ _ _ _ _ => ⟨rfl, .inl ⟨rfl, rfl⟩⟩)
    (map := fun _ _ _ _ _ _ => ⟨rfl, .inl ⟨rfl, rfl⟩⟩)
    (unmap := fun _ _ _ _ => ⟨rfl, .inl ⟨rfl, rfl⟩⟩)
    (loadp := fun _ _ _ _ _ => ⟨rfl, .inl ⟨rfl, rfl⟩⟩)
    (out := fun _ _ _ => ⟨rfl, .inl ⟨rfl, rfl⟩⟩)
    (inp := fun c _ _ hi ha _ => ⟨rfl, .inr ⟨⟨c, hi⟩, tookAnswer_of_consume ha rfl rfl⟩⟩)
    (inerr := fun c hi ha => ⟨rfl, .inr ⟨⟨c, hi⟩, tookAnswer_of_consume ha rfl rfl⟩⟩)
    (halt := fun _ => ⟨rfl, .inl ⟨rfl, rfl⟩⟩)

/-- Settles O35: only IN consumes an answer, the present one. -/
theorem inputAnswersAreConsumedInOrder : Obligations.InputAnswersAreConsumedInOrder := by
  intro s t h
  obtain ⟨k, -, rfl⟩ | ⟨i, habout, hexec⟩ := fault_or_exec_of_step h
  · exact ⟨rfl, .inl ⟨rfl, rfl⟩⟩
  · obtain ⟨hend, hkept | ⟨⟨c, rfl⟩, htook⟩⟩ := exec_input hexec
    · exact ⟨hend, .inl hkept⟩
    · exact ⟨hend, .inr ⟨⟨c, habout⟩, htook⟩⟩

/-! ### The premise `InputIs(bytes)` -/

/-- `s` has consumed the first answers that `InputIs(bytes)` gives, and waits for the others (R21). -/
def FedBy (bytes : List Byte) (s : State) : Prop :=
  s.InputIs (bytes.drop s.inp.length) ∧ s.inp = (List.range s.inp.length).map (inputIsAnswer bytes)

theorem inputIsAnswer_drop (bytes : List Byte) (k : Nat) : inputIsAnswer (bytes.drop k) 0 = inputIsAnswer bytes k := by
  simp [inputIsAnswer]

/-- What is asked next, of a state fed by `bytes` (R21). -/
theorem FedBy.nextAnswer {bytes : List Byte} {s : State} (h : FedBy bytes s) :
    s.nextAnswer = some (inputIsAnswer bytes s.inp.length) := by
  rw [State.nextAnswer_of_inputIs h.1, inputIsAnswer_drop]

/-- The answer taken from a state fed by `bytes` is the next of `bytes`, and the others stay. -/
theorem FedBy.took {bytes : List Byte} {s t : State} (h : FedBy bytes s) (hend : t.inputEnd = s.inputEnd)
    (htook : TookAnswer s t) : FedBy bytes t := by
  have hnext := h.nextAnswer
  obtain ⟨⟨hinput, hendIs⟩, hinp⟩ := h
  obtain ⟨a, hrecord, htaken⟩ := htook
  have ha : a = inputIsAnswer bytes s.inp.length := by
    have hanswered := State.nextAnswer_eq_some.2 (htaken.imp (fun e => ⟨_, e⟩) fun ⟨e, _, e'⟩ => ⟨e, e'⟩)
    exact Option.some.inj (hanswered.symm.trans hnext)
  have hwaiting : t.input = s.input.tail := by
    obtain htaken | ⟨hs, ht, -⟩ := htaken
    · rw [htaken, List.tail_cons]
    · rw [hs, ht, List.tail_nil]
  have hlength : t.inp.length = s.inp.length + 1 := by simp [hrecord]
  refine ⟨⟨?_, hend.trans hendIs⟩, ?_⟩
  · rw [hwaiting, hinput, hlength, ← List.map_tail, List.tail_drop]
  · rw [hlength, List.range_succ, List.map_append, ← hinp, hrecord, ha, List.map_singleton]

/-- Every step keeps it, so it holds along the run. -/
theorem FedBy.step {bytes : List Byte} {s t : State} (h : FedBy bytes s) (hstep : Machine.step s = .next t) :
    FedBy bytes t := by
  obtain ⟨hend, ⟨hinput, hinp⟩ | ⟨-, htook⟩⟩ := inputAnswersAreConsumedInOrder s t hstep
  · rw [FedBy, State.InputIs, hinput, hinp, hend]
    exact h
  · exact h.took hend htook

theorem FedBy.reaches {bytes : List Byte} {s t : State} (h : FedBy bytes s) (hreach : Reaches s t) : FedBy bytes t := by
  induction hreach with
  | start => exact h
  | next _ hstep ih => exact ih.step hstep

/-- The value an IN writes for an answer of `InputIs(bytes)` (R104). -/
theorem execIn_of_inputIsAnswer {bytes : List Byte} {k : Nat} {s : State} (c : RegIdx)
    (h : s.nextAnswer = some (inputIsAnswer bytes k)) :
    ∃ u, execIn c s = .next u ∧ u.status = s.status ∧ u.inp = s.inp ++ [inputIsAnswer bytes k] ∧
      (u.readReg c).toNat = (match bytes[k]? with
        | some b => b.toNat
        | none => 2 ^ 32 - 1) := by
  unfold inputIsAnswer at h ⊢
  cases hk : bytes[k]? with
  | some b =>
    rw [hk] at h
    refine ⟨_, execIn_next.2 (.inr (.inl ⟨b, h, rfl⟩)), rfl, rfl, ?_⟩
    have hb := b.isLt
    simp only [State.readReg_route_advance, State.readReg_writeReg_self, byteWord, BitVec.toNat_setWidth]
    omega
  | none =>
    rw [hk] at h
    exact ⟨_, execIn_next.2 (.inr (.inr (.inl ⟨h, rfl⟩))), rfl, rfl, by simp [eofWord]⟩

/-- Settles O52: every state of the run is fed by `bytes`, so each request has its answer. -/
theorem inputIsAnswersEveryRequest : Obligations.InputIsAnswersEveryRequest := by
  intro s t bytes hs hinp hreach
  have hstart : FedBy bytes s := by simp only [FedBy, hinp]; exact ⟨hs, rfl⟩
  have hfed := hstart.reaches hreach
  refine ⟨hfed.1, hfed.2, fun c habout => ?_⟩
  obtain ⟨u, hexec, hstatus, hrest⟩ := execIn_of_inputIsAnswer c hfed.nextAnswer
  exact ⟨u, (step_eq_exec_of_about habout).trans hexec, hstatus.trans habout.1, hrest⟩

end Sys2Proof.Machine
end

section
/-! SUPPORT. Reset and launch (R11, R19, R28, R130), the room for `pc + 1` (R12), and the status port (R15). -/

namespace Sys2Proof.Machine

open Sys2Proof.Rules

/-! ### Reset and launch -/

/-- What a launch gives, and when (R22, R28, D12). -/
theorem launch_eq_some {cfg : Config} {program : List Word} {s : State} : launch cfg program = some s ↔
    (cfg.wf = true ∧ program.length < 2 ^ 32) ∧
      { State.reset with mem := ⟨[Segment.ofWords program], []⟩, cfg := cfg } = s := by
  unfold launch
  split
  · next h => simp only [Option.some.injEq, h, and_self, true_and]
  · next h => simp only [reduceCtorEq, h, false_and]

@[simp] theorem State.readReg_reset (r : RegIdx) : State.reset.readReg r = 0 := by
  simp [State.reset, State.readReg]

/-- Parameters that rule R6 admits allow the one slot of reset (D8). -/
theorem Config.one_le_maxHandles {cfg : Config} (h : cfg.wf = true) : 1 ≤ cfg.maxHandles := by
  simp only [Config.wf, Bool.and_eq_true, decide_eq_true_eq] at h
  obtain ⟨⟨⟨-, hone⟩, -⟩, -⟩ := h
  exact hone

/-- A store of one segment, with no handle free, meets R18 (R19). -/
theorem Memory.storeInv_single {cfg : Config} (hcfg : cfg.wf = true) {g : Segment} (hlen : g.len < 2 ^ 32) :
    Memory.StoreInv ⟨[g], []⟩ cfg :=
  ⟨le_rfl, by simp, by simp, by simp, by simp, by simpa using hlen, Config.one_le_maxHandles hcfg⟩

/-- Settles O19: reset zeroes the register file, and a launch leaves it. -/
theorem registersAreZeroAtStartup : Obligations.RegistersAreZeroAtStartup := by
  refine ⟨State.readReg_reset, fun cfg program s h r => ?_⟩
  obtain ⟨-, rfl⟩ := launch_eq_some.1 h
  exact State.readReg_reset r

/-- Settles O39: one canonical segment, nothing free, parameters that R6 admits, empty streams. -/
theorem launchMeetsTheInvariant : Obligations.LaunchMeetsTheInvariant := by
  refine ⟨⟨by decide, State.reset_mem_wf, Memory.storeInv_single (by decide) (by decide), rfl, by decide⟩,
    fun cfg program s h => ?_⟩
  obtain ⟨⟨hcfg, hlen⟩, rfl⟩ := launch_eq_some.1 h
  have hwf : Memory.wf ⟨[Segment.ofWords program], []⟩ := by
    intro g hg
    rw [List.mem_singleton.1 hg]
    exact Segment.wf_ofWords program
  exact ⟨hcfg, hwf, Memory.storeInv_single hcfg hlen, rfl, by simp [State.reset]⟩

/-- Settles O40: each field of the launched state is the table's. -/
theorem launchGivesTheResetTable : Obligations.LaunchGivesTheResetTable := by
  intro cfg program
  refine ⟨⟨fun ⟨s, h⟩ => (launch_eq_some.1 h).1, fun h => ⟨_, launch_eq_some.2 ⟨h, rfl⟩⟩⟩, fun s h => ?_⟩
  obtain ⟨-, rfl⟩ := launch_eq_some.1 h
  exact ⟨State.readReg_reset, rfl, rfl, rfl, Segment.words_ofWords program, rfl, rfl, rfl, rfl, rfl, rfl⟩

/-! ### The program counter -/

/-- Settles O16: segment 0 is shorter than `2^32` words, and `pc` is inside it. -/
theorem programCounterNeverWraps : Obligations.ProgramCounterNeverWraps := by
  intro s w ⟨_, _, ⟨hcount, _, _, _, _, hlens, _⟩, _⟩ hw
  have hlen : s.mem.len 0 < 2 ^ 32 := hlens _ (Memory.segment_mem hcount)
  have hpc : s.pc.toNat < s.mem.len 0 := (Memory.fetch_eq_ok.1 (fetch_eq_ok_iff_wordAt.2 hw)).1
  omega

/-! ### The status port -/

/-- What the status port shows in each run state (R15, D24). -/
theorem statusPort_cases (s : State) :
    (s.status = .running ∧ s.statusPort = (0, 0)) ∨ (s.status = .halted ∧ s.statusPort = (1, 0)) ∨
    ∃ k, s.status = .faulted k ∧ s.statusPort = (2, faultCode s.cfg.faultCodes k) := by
  unfold State.statusPort
  cases hs : s.status with
  | running => exact .inl ⟨rfl, rfl⟩
  | halted => exact .inr (.inl ⟨rfl, rfl⟩)
  | faulted k => exact .inr (.inr ⟨k, rfl, rfl⟩)

/-- Settles O48, by cases on the run state; the default codes are read off the table. -/
theorem statusPortEncodesTheRunState : Obligations.StatusPortEncodesTheRunState := by
  intro s
  obtain ⟨hs, hport⟩ | ⟨hs, hport⟩ | ⟨k, hs, hport⟩ := statusPort_cases s
  · simp [hs, hport, Config.default, FaultCodes.default, faultCode]
  · simp [hs, hport, Config.default, FaultCodes.default, faultCode]
  · simp [hs, hport, Config.default, FaultCodes.default, faultCode]

end Sys2Proof.Machine
end

section
/-! SUPPORT. The Segment Store along a run: the free-list as a stack (R17), the number of slots and the lengths of
mapped segments (R16). -/

namespace Sys2Proof.Machine

open Sys2Proof.Rules

/-! ### The free-list -/

/-- An UNMAP that does not fault pushes its handle. -/
theorem free_of_execUnmap {c : RegIdx} {s t : State} (h : exec (.unmap c) s = .next t) (hrun : t.status = .running) :
    t.mem.free = (s.readReg c).toNat :: s.mem.free := by
  obtain ⟨m, hd, rfl⟩ | ⟨k, -, rfl⟩ := execUnmap_next.1 h
  · obtain ⟨-, rfl⟩ := Memory.dealloc_eq_ok.1 hd
    rfl
  · exact nomatch hrun

/-- A MAP that does not fault pops the top of a free-list that has one, and gives it. -/
theorem free_of_execMap {b c : RegIdx} {s t : State} {a : Nat} {rest : List Nat} (h : exec (.map b c) s = .next t)
    (hrun : t.status = .running) (hfree : s.mem.free = a :: rest) :
    t.mem.free = rest ∧ t.readReg b = BitVec.ofNat 32 a := by
  obtain ⟨a', m, ha, rfl⟩ | ⟨k, -, rfl⟩ := execMap_next.1 h
  · obtain ⟨-, ⟨rest', hfree', rfl⟩ | ⟨hnil, -⟩⟩ := Memory.alloc_eq_ok.1 ha
    · obtain ⟨rfl, rfl⟩ := List.cons.inj (hfree.symm.trans hfree')
      exact ⟨rfl, State.readReg_writeReg_self _ b _⟩
    · rw [hnil] at hfree
      exact nomatch hfree
  · exact nomatch hrun

/-- Settles O37: push and pop at the same end, so two pushes are popped in the opposite order. -/
theorem freeListIsLastInFirstOut : Obligations.FreeListIsLastInFirstOut := by
  refine ⟨fun c s t h hst hrun => free_of_execUnmap h (hst.trans hrun),
    fun b c s t a rest h _ hrun hfree => free_of_execMap h hrun hfree,
    fun c1 c2 b1 n1 b2 n2 s s1 s2 s3 s4 _ h1 h2 h3 h4 hrun4 hrun1 hrun2 hrun3 => ?_⟩
  have hfree1 := free_of_execUnmap h1 hrun1
  have hfree2 := free_of_execUnmap h2 hrun2
  obtain ⟨hfree3, hgiven3⟩ := free_of_execMap h3 hrun3 hfree2
  obtain ⟨-, hgiven4⟩ := free_of_execMap h4 hrun4 (hfree3.trans hfree1)
  exact ⟨by rw [hgiven3, BitVec.ofNat_toNat, BitVec.setWidth_eq],
    by rw [hgiven4, BitVec.ofNat_toNat, BitVec.setWidth_eq]⟩

/-! ### The slots -/

/-- From `m` to `n` the slots grew by at most one, and a segment other than segment 0 that is mapped in both kept its
length (R16). -/
def SlotsGrow (m n : Memory) : Prop :=
  m.count ≤ n.count ∧ n.count ≤ m.count + 1 ∧
  ∀ h, h ≠ 0 → m.mapped h = true → n.mapped h = true → n.len h = m.len h

theorem SlotsGrow.refl (m : Memory) : SlotsGrow m m := ⟨le_rfl, Nat.le_succ _, fun _ _ _ _ => rfl⟩

/-- Replacing a slot that is segment 0's, or not mapped before and after, or by a segment of its length. -/
theorem slotsGrow_set {m : Memory} {a : Nat} {g : Segment} {free : List Nat}
    (h : a ≠ 0 → a ∉ m.free → a ∉ free → g.len = m.len a) : SlotsGrow m ⟨m.slots.set a g, free⟩ := by
  refine ⟨by simp [Memory.count], by simp [Memory.count], fun k hk hm hn => ?_⟩
  rw [Memory.len, Memory.segment_set_eq]
  split
  · next hka =>
    obtain ⟨rfl, -⟩ := hka
    exact h hk (Memory.mapped_iff.1 hm).2 (Memory.mapped_iff.1 hn).2
  · rfl

theorem Memory.write_slotsGrow {m n : Memory} {a o : Nat} {v : Word} (h : m.write a o v = .ok n) : SlotsGrow m n := by
  obtain ⟨-, rfl⟩ := Memory.write_eq_ok.1 h
  exact slotsGrow_set fun _ _ _ => Segment.len_set _ o v

theorem Memory.dealloc_slotsGrow {m n : Memory} {a : Nat} (h : m.dealloc a = .ok n) : SlotsGrow m n := by
  obtain ⟨-, rfl⟩ := Memory.dealloc_eq_ok.1 h
  exact slotsGrow_set fun _ _ ha => absurd List.mem_cons_self ha

theorem Memory.dupIntoZero_slotsGrow {m n : Memory} {cfg : Config} {a : Nat} (h : m.dupIntoZero cfg a = .ok n) :
    SlotsGrow m n := by
  obtain ⟨-, rfl⟩ | ⟨-, -, -, rfl⟩ := Memory.dupIntoZero_eq_ok.1 h
  · exact .refl m
  · exact slotsGrow_set fun h0 => absurd rfl h0

theorem Memory.alloc_slotsGrow {m n : Memory} {cfg : Config} {len a : Nat} (h : m.alloc cfg len = .ok (a, n)) :
    SlotsGrow m n := by
  obtain ⟨-, ⟨rest, hfree, rfl⟩ | ⟨-, -, rfl, rfl⟩⟩ := Memory.alloc_eq_ok.1 h
  · exact slotsGrow_set fun _ ha => absurd (hfree ▸ List.mem_cons_self) ha
  · refine ⟨by simp [Memory.count], by simp [Memory.count], fun k _ hm _ => ?_⟩
    rw [Memory.len, Memory.segment_append, if_neg (Nat.ne_of_lt (Memory.mapped_iff.1 hm).1)]

/-- No instruction removes a slot, adds two, or resizes a mapped segment other than segment 0. -/
theorem exec_slotsGrow {i : Instr} {s t : State} (h : exec i s = .next t) : SlotsGrow s.mem t.mem :=
  exec_next_cases (P := fun u => SlotsGrow s.mem u.mem) h
    (hold := fun _ _ _ => .refl _)
    (fault := fun _ _ => .refl _)
    (reg := fun _ _ _ _ => .refl _)
    (noreg := fun _ => .refl _)
    (store := fun _ _ _ _ _ hw => Memory.write_slotsGrow hw)
    (map := fun _ _ _ _ _ ha => Memory.alloc_slotsGrow ha)
    (unmap := fun _ _ _ hd => Memory.dealloc_slotsGrow hd)
    (loadp := fun _ _ _ _ hd => Memory.dupIntoZero_slotsGrow hd)
    (out := fun _ _ _ => .refl _)
    (inp := fun _ _ _ _ _ _ => .refl _)
    (inerr := fun _ _ _ => .refl _)
    (halt := fun _ => .refl _)

/-- Settles O41: a fault entry keeps memory, and no instruction does more than `SlotsGrow` says. -/
theorem segmentCollectionOnlyGrows : Obligations.SegmentCollectionOnlyGrows := by
  intro s t h
  have hgrow : SlotsGrow s.mem t.mem :=
    step_next_cases (P := fun u => SlotsGrow s.mem u.mem) (fun _ _ => .refl _)
      (fun _ _ _ hexec => exec_slotsGrow hexec) h
  obtain ⟨hlo, hhi, hlen⟩ := hgrow
  exact ⟨hlo, hhi, fun k hk hs ht => hlen k hk (Memory.mapped_iff.2 hs) (Memory.mapped_iff.2 ht)⟩

end Sys2Proof.Machine
end

section
/-! SUPPORT. The store the machine runs on and the rules' pseudocode (R32 to R38, R71): what `Memory.dense` keeps, and
that each operation commutes with it. -/

namespace Sys2Proof.Machine

/-! ### What a store stands for -/

section
variable (m : Memory)

@[simp] theorem Memory.dense_free : m.dense.free = m.free := rfl

@[simp] theorem Memory.length_dense_slots : m.dense.slots.length = m.count := by simp [Memory.dense]

@[simp] theorem Memory.dense_seg (h : Nat) : m.dense.seg h = (m.segment h).words := by
  simp only [DenseStore.seg, Memory.dense, List.getElem?_map, Memory.segment]
  cases m.slots[h]? <;> simp

@[simp] theorem Memory.dense_mapped (h : Nat) : m.dense.mapped h = m.mapped h := by
  simp [DenseStore.mapped, Memory.mapped]

@[simp] theorem Memory.dense_total : m.dense.total = m.total := by
  simp [DenseStore.total, Memory.total, funext m.dense_mapped]

/-- A replaced slot is a replaced sequence. -/
theorem Memory.dense_set (h : Nat) (g : Segment) (free : List Nat) :
    Memory.dense ⟨m.slots.set h g, free⟩ = ⟨m.dense.slots.set h g.words, free⟩ := by
  simp [Memory.dense, List.map_set]

theorem Memory.dense_setSlot (h : Nat) (g : Segment) :
    (m.setSlot h g).dense = ⟨m.dense.slots.set h g.words, m.free⟩ := m.dense_set h g m.free

/-- One slot more is one sequence more. -/
theorem Memory.dense_append (g : Segment) (free : List Nat) :
    Memory.dense ⟨m.slots ++ [g], free⟩ = ⟨m.dense.slots ++ [g.words], free⟩ := by
  simp [Memory.dense]

/-- `MAX_WORDS`, as the pseudocode of R34 and R38 tests it. -/
theorem exceedsWords_eq_any (cfg : Config) (inUse n : Nat) :
    exceedsWords cfg inUse n = cfg.maxWords.any fun bound => decide (bound < inUse + n) := by
  unfold exceedsWords
  cases cfg.maxWords <;> rfl

/-! ### Each operation -/

theorem Memory.read_eq_dense (h o : Nat) : m.read h o = m.dense.read h o := by
  simp only [Memory.read, DenseStore.read, Memory.valid, Memory.dense_mapped, Memory.dense_seg,
    Segment.getElem?_words]
  by_cases hm : m.mapped h = true
  · by_cases ho : o < m.len h <;> simp [hm, ho]
  · simp [hm]

theorem Memory.fetch_eq_dense (pc : Word) : m.fetch pc = m.dense.fetch pc.toNat := by
  simp only [Memory.fetch, DenseStore.fetch, Memory.dense_seg, Segment.getElem?_words]
  by_cases hpc : pc.toNat < m.len 0
  · simp [hpc, Nat.not_le.2 hpc]
  · simp [hpc, Nat.not_lt.1 hpc]

theorem Memory.dense_write (hm : m.wf) (h o : Nat) (v : Word) :
    (m.write h o v).map Memory.dense = m.dense.write h o v := by
  have hvalid : (m.dense.mapped h = true ∧ o < (m.dense.seg h).length) ↔ m.valid h o = true := by
    simp [Memory.valid]
  simp only [Memory.write, DenseStore.write, hvalid]
  split
  · simp [Except.map, Memory.dense_setSlot, Segment.words_set (m.segment_wf hm h)]
  · rfl

theorem Memory.dense_alloc (cfg : Config) (n : Nat) :
    (m.alloc cfg n).map (fun r => (r.1, r.2.dense)) = m.dense.alloc cfg n := by
  simp only [Memory.alloc, DenseStore.alloc, Memory.dense_free, Memory.length_dense_slots, Memory.dense_total,
    exceedsWords_eq_any]
  split
  · rfl
  · split
    · rfl
    · cases m.free with
      | nil => simp [Except.map, Memory.dense_append]
      | cons h rest => simp [Except.map, Memory.dense_set]

theorem Memory.dense_dealloc (h : Nat) : (m.dealloc h).map Memory.dense = m.dense.dealloc h := by
  simp only [Memory.dealloc, DenseStore.dealloc, Memory.dense_free, Memory.length_dense_slots]
  split
  · rfl
  · simp [Except.map, Memory.dense_set]

theorem Memory.dense_dupIntoZero (cfg : Config) (h : Nat) :
    (m.dupIntoZero cfg h).map Memory.dense = m.dense.dupIntoZero cfg h := by
  simp only [Memory.dupIntoZero, DenseStore.dupIntoZero, Memory.dense_mapped, Memory.dense_total, Memory.dense_seg,
    Segment.length_words, exceedsWords_eq_any]
  split
  · rfl
  · split
    · rfl
    · split
      · rfl
      · simp [Except.map, Memory.dense_setSlot]

end

/-- Settles O46, operation by operation. -/
theorem storeRefinesThePseudocode : Obligations.StoreRefinesThePseudocode := fun m cfg hm =>
  ⟨m.read_eq_dense, m.fetch_eq_dense, m.dense_write hm, m.dense_alloc cfg, m.dense_dealloc,
    m.dense_dupIntoZero cfg⟩

/-! ### The canonical form -/

/-- A canonical segment is determined by its words. -/
theorem Segment.eq_of_words_eq {g k : Segment} (hg : g.wf) (hk : k.wf) (h : g.words = k.words) : g = k := by
  have hlen : g.len = k.len := by simpa using congrArg List.length h
  refine Segment.ext_get hg hk hlen fun o ho => ?_
  have hword : g.words[o]? = k.words[o]? := by rw [h]
  rw [Segment.getElem?_words, Segment.getElem?_words, if_pos ho, if_pos (hlen ▸ ho)] at hword
  exact Option.some.inj hword

/-- Settles O47: slot by slot, a canonical segment is determined by its words. -/
theorem canonicalStoresAreEqualData : Obligations.CanonicalStoresAreEqualData := by
  intro ⟨slots, free⟩ ⟨slots', free'⟩ hm hk h
  obtain ⟨hslots, rfl⟩ := DenseStore.mk.inj h
  have hlength : slots.length = slots'.length := by simpa using congrArg List.length hslots
  have hseg : slots = slots' := List.ext_getElem hlength fun i hi hi' =>
    Segment.eq_of_words_eq (hm _ (List.getElem_mem hi)) (hk _ (List.getElem_mem hi')) (by
      simpa [hi, hi'] using congrArg (·[i]?) hslots)
  rw [hseg]

end Sys2Proof.Machine
end

section
/-! SUPPORT. Who changes a word of memory (R43), and who sees the change: the next fetch (R45), the source and the copy
of LOADP (R38). -/

namespace Sys2Proof.Machine

open Sys2Proof.Rules

/-! ### The writers -/

/-- From `m` to `n` every word whose address is valid in both reads as it did. -/
def WordsKept (m n : Memory) : Prop :=
  ∀ h o, m.valid h o = true → n.valid h o = true → n.read h o = m.read h o

theorem WordsKept.refl (m : Memory) : WordsKept m m := fun _ _ _ _ => rfl

/-- Words are kept where the segments of handles mapped in both are. -/
theorem wordsKept_of_segment {m n : Memory}
    (h : ∀ k, m.mapped k = true → n.mapped k = true → n.segment k = m.segment k) : WordsKept m n := by
  intro k o hm hn
  have hseg := h k (Memory.mapped_iff.2 (Memory.valid_iff.1 hm).1) (Memory.mapped_iff.2 (Memory.valid_iff.1 hn).1)
  exact Memory.read_congr (hn.trans hm.symm) (by rw [hseg])

/-- MAP fills a slot that was free or did not exist (R34). -/
theorem Memory.alloc_wordsKept {m n : Memory} {cfg : Config} {len a : Nat} (h : m.alloc cfg len = .ok (a, n)) :
    WordsKept m n := by
  refine wordsKept_of_segment fun k hk _ => ?_
  obtain ⟨hlt, hfree⟩ := Memory.mapped_iff.1 hk
  obtain ⟨-, ⟨rest, ha, rfl⟩ | ⟨-, -, rfl, rfl⟩⟩ := Memory.alloc_eq_ok.1 h
  · rw [Memory.segment_set_eq, if_neg]
    rintro ⟨rfl, -⟩
    exact hfree (ha ▸ List.mem_cons_self)
  · rw [Memory.segment_append, if_neg (Nat.ne_of_lt hlt)]

/-- UNMAP empties a slot that is free afterwards (R35). -/
theorem Memory.dealloc_wordsKept {m n : Memory} {a : Nat} (h : m.dealloc a = .ok n) : WordsKept m n := by
  refine wordsKept_of_segment fun k _ hk => ?_
  obtain ⟨-, rfl⟩ := Memory.dealloc_eq_ok.1 h
  rw [Memory.segment_set_eq, if_neg]
  rintro ⟨rfl, -⟩
  exact (Memory.mapped_iff.1 hk).2 List.mem_cons_self

/-- The word at `(h, o)` in `n` was put there by the instruction `i` run in `s`: SSTORE to that address, or, in
segment 0, LOADP of another segment. -/
def Writes (i : Instr) (s : State) (h o : Nat) (n : Memory) : Prop :=
  (∃ a b c, i = .sstore a b c ∧ sstoreAddress a b s = (h, o) ∧ n.read h o = .ok (s.readReg c)) ∨
  (h = 0 ∧ ∃ b c, i = .loadp b c ∧ (s.readReg b).toNat ≠ 0 ∧ n.read 0 o = s.mem.read (s.readReg b).toNat o)

/-- A word that SSTORE changed is the one it stored. -/
theorem Memory.write_writes {a b c : RegIdx} {s : State} {n : Memory} (hwf : s.mem.wf)
    (hw : s.mem.write (s.readReg a).toNat (s.readReg b).toNat (s.readReg c) = .ok n) {h o : Nat}
    (hne : n.read h o ≠ s.mem.read h o) : Writes (.sstore a b c) s h o n := by
  have hread := (Memory.read_write hwf hw h o).1
  by_cases hat : h = (s.readReg a).toNat ∧ o = (s.readReg b).toNat
  · rw [if_pos hat] at hread
    exact .inl ⟨a, b, c, rfl, Prod.ext hat.1.symm hat.2.symm, hread⟩
  · rw [if_neg hat] at hread
    exact absurd hread hne

/-- A copy into segment 0 leaves every other segment's words (R38). -/
theorem Memory.read_dupIntoZero_of_ne {m n : Memory} {cfg : Config} {a : Nat} (hd : m.dupIntoZero cfg a = .ok n)
    {k : Nat} (hk : k ≠ 0) (o : Nat) : n.read k o = m.read k o := by
  obtain ⟨-, rfl⟩ | ⟨-, -, -, rfl⟩ := Memory.dupIntoZero_eq_ok.1 hd
  · rfl
  · have hseg : (m.setSlot 0 (m.segment a)).segment k = m.segment k := by
      simp [Memory.setSlot, Memory.segment_set_eq, hk]
    exact Memory.read_congr (Memory.valid_congr (m.mapped_setSlot 0 _ k) (congrArg Segment.len hseg) o) (by rw [hseg])

/-- A word that LOADP changed lies in segment 0 and is the source's. -/
theorem Memory.dupIntoZero_writes {b c : RegIdx} {s : State} {n : Memory}
    (hd : s.mem.dupIntoZero s.cfg (s.readReg b).toNat = .ok n) {h o : Nat} (hvalid : s.mem.valid h o = true)
    (hne : n.read h o ≠ s.mem.read h o) : Writes (.loadp b c) s h o n := by
  by_cases h0 : h = 0
  · subst h0
    have hread := (Memory.read_dupIntoZero (Memory.mapped_iff.2 (Memory.valid_iff.1 hvalid).1) hd).1 o
    exact .inr ⟨rfl, b, c, rfl, fun hsource => hne (hsource ▸ hread), hread⟩
  · exact absurd (Memory.read_dupIntoZero_of_ne hd h0 o) hne

/-- A word that an instruction changed at an address valid before and after was put there by it. -/
theorem exec_writes {i : Instr} {s t : State} (hwf : s.mem.wf) (hexec : exec i s = .next t) {h o : Nat}
    (hs : s.mem.valid h o = true) :
    t.mem.valid h o = true → t.mem.read h o ≠ s.mem.read h o → Writes i s h o t.mem :=
  exec_next_cases
    (P := fun u => u.mem.valid h o = true → u.mem.read h o ≠ s.mem.read h o → Writes i s h o u.mem) hexec
    (hold := fun _ _ _ _ hne => absurd rfl hne)
    (fault := fun _ _ _ hne => absurd rfl hne)
    (reg := fun _ _ _ _ _ hne => absurd rfl hne)
    (noreg := fun _ _ hne => absurd rfl hne)
    (store := fun _ _ _ _ hi hw _ hne => hi ▸ Memory.write_writes hwf hw hne)
    (map := fun _ _ _ _ _ ha ht hne => absurd (Memory.alloc_wordsKept ha h o hs ht) hne)
    (unmap := fun _ _ _ hd ht hne => absurd (Memory.dealloc_wordsKept hd h o hs ht) hne)
    (loadp := fun _ _ _ hi hd _ hne => hi ▸ Memory.dupIntoZero_writes hd hs hne)
    (out := fun _ _ _ _ hne => absurd rfl hne)
    (inp := fun _ _ _ _ _ _ _ hne => absurd rfl hne)
    (inerr := fun _ _ _ _ hne => absurd rfl hne)
    (halt := fun _ _ hne => absurd rfl hne)

/-- Settles O42: a fault entry keeps memory, and of the instructions only SSTORE and LOADP change a word. -/
theorem memoryChangesOnlyByItsWriters : Obligations.MemoryChangesOnlyByItsWriters := by
  intro s t h o hwf hstep hs ht hne
  obtain ⟨k, -, rfl⟩ | ⟨i, habout, hexec⟩ := fault_or_exec_of_step hstep
  · exact absurd rfl hne
  · obtain ⟨a, b, c, rfl, hstored⟩ | ⟨h0, b, c, rfl, hcopied⟩ :=
      exec_writes hwf hexec (Memory.valid_iff.2 hs) (Memory.valid_iff.2 ht) hne
    · exact .inl ⟨a, b, c, habout, hstored⟩
    · exact .inr ⟨h0, b, c, habout, hcopied⟩

/-! ### The next fetch -/

/-- A fetch depends on the length of segment 0 and the word at `pc` only (R71). -/
theorem Memory.fetch_congr {m n : Memory} {pc : Word} (hlen : n.len 0 = m.len 0)
    (hget : (n.segment 0).get pc.toNat = (m.segment 0).get pc.toNat) : n.fetch pc = m.fetch pc := by
  simp only [Memory.fetch, hlen, hget]

/-- A store into segment 0 is fetched at its offset, and every other fetch is as before. -/
theorem Memory.fetch_write {m n : Memory} (hwf : m.wf) {o v : Word} (hw : m.write 0 o.toNat v = .ok n) :
    n.fetch o = .ok v ∧ ∀ pc, pc ≠ o → n.fetch pc = m.fetch pc := by
  obtain ⟨hvalid, rfl⟩ := Memory.write_eq_ok.1 hw
  obtain ⟨⟨hcount, -⟩, ho⟩ := Memory.valid_iff.1 hvalid
  have hseg := (Memory.segment_setSlot hcount ((m.segment 0).set o.toNat v) 0).trans (if_pos rfl)
  have hget := Segment.get_set (m.segment_wf hwf 0) o.toNat v
  constructor
  · rw [Memory.fetch_eq_ok, Memory.len, hseg, hget, if_pos rfl]
    exact ⟨ho, rfl⟩
  · intro pc hpc
    refine Memory.fetch_congr ((congrArg Segment.len hseg).trans (Segment.len_set _ _ _)) ?_
    rw [hseg, hget, if_neg (mt BitVec.eq_of_toNat_eq hpc)]

/-- After a copy segment 0 is the source, whole. -/
theorem Memory.segment_zero_dupIntoZero {m n : Memory} {cfg : Config} {a : Nat} (hcount : 0 < m.count)
    (hd : m.dupIntoZero cfg a = .ok n) : n.segment 0 = m.segment a := by
  obtain ⟨rfl, rfl⟩ | ⟨-, -, -, rfl⟩ := Memory.dupIntoZero_eq_ok.1 hd
  · rfl
  · exact (Memory.segment_setSlot hcount _ 0).trans (if_pos rfl)

/-- An SSTORE that runs on wrote its word. -/
theorem write_of_execSstore {a b c : RegIdx} {s t : State} (h : exec (.sstore a b c) s = .next t)
    (hrun : t.status = .running) :
    s.mem.write (s.readReg a).toNat (s.readReg b).toNat (s.readReg c) = .ok t.mem := by
  obtain ⟨m, hw, rfl⟩ | ⟨k, -, rfl⟩ := execSstore_next.1 h
  · exact hw
  · exact nomatch hrun

/-- A LOADP that runs on copied its segment. -/
theorem dupIntoZero_of_execLoadp {b c : RegIdx} {s t : State} (h : exec (.loadp b c) s = .next t)
    (hrun : t.status = .running) : s.mem.dupIntoZero s.cfg (s.readReg b).toNat = .ok t.mem := by
  obtain ⟨m, hd, rfl⟩ | ⟨k, -, rfl⟩ := execLoadp_next.1 h
  · exact hd
  · exact nomatch hrun

/-- Settles O43: a fetch reads segment 0 as the store or the copy left it. -/
theorem fetchSeesStoresAtOnce : Obligations.FetchSeesStoresAtOnce := by
  refine ⟨fun a b c s t hwf _ h hrun h0 => ?_, fun b c s t pc w hinv _ h hrun => ?_⟩
  · exact Memory.fetch_write hwf (h0 ▸ write_of_execSstore h hrun)
  · obtain ⟨-, -, ⟨hcount, -⟩, -⟩ := hinv
    have hseg := Memory.segment_zero_dupIntoZero hcount (dupIntoZero_of_execLoadp h hrun)
    -- a fetch at `pc` is the fetch of the state that jumped there
    have hfetch : t.mem.fetch pc = .ok w ↔ wordAt t 0 pc.toNat = some w :=
      fetch_eq_ok_iff_wordAt (s := t.route (.jump pc))
    rw [hfetch, wordAt, wordAt, hseg]

/-! ### The copy -/

/-- After an SSTORE every segment but the one it names reads as before, also where it faults. -/
theorem read_of_execSstore {a b c : RegIdx} {s t : State} (hwf : s.mem.wf) (h : exec (.sstore a b c) s = .next t)
    {k : Nat} (hk : k ≠ (s.readReg a).toNat) (o : Nat) : t.mem.read k o = s.mem.read k o := by
  obtain ⟨m, hw, rfl⟩ | ⟨_, -, rfl⟩ := execSstore_next.1 h
  · exact (Memory.read_write hwf hw k o).1.trans (if_neg fun hat => hk hat.1)
  · rfl

/-- Settles O44: both read as the source did after the copy, and a store changes only the one it names. -/
theorem loadProgramCopyIsByValue : Obligations.LoadProgramCopyIsByValue := by
  rintro b c a' b' c' s t u h hinv - rfl hne hcopy hrun hstore
  have hd := dupIntoZero_of_execLoadp hcopy hrun
  obtain ⟨-, hwf, ⟨hcount, hfree, -⟩, -⟩ := hinv
  have hkept := fun k => read_of_execSstore (k := k) (Memory.dupIntoZero_wf hwf hd) hstore
  constructor
  · intro hto o
    exact (hkept _ (hto ▸ hne) o).trans (Memory.read_dupIntoZero_of_ne hd hne o)
  · intro hto o
    exact (hkept _ (hto ▸ hne.symm) o).trans
      ((Memory.read_dupIntoZero (Memory.mapped_iff.2 ⟨hcount, hfree⟩) hd).1 o)

end Sys2Proof.Machine
end

section
/-! SUPPORT. The decoder in the statements' terms (R60): the top four bits are the opcode, and the registers are slices
of the word. What an operation reads of a word are its lowest `Op.usedBits` bits under the opcode (R57). -/

namespace Sys2Proof

open Sys2Proof.Rules

theorem opcodeField_eq_topBits (w : Word) : opcodeField w = topBits w := opcodeField_eq w

theorem fieldA_eq_regBits (w : Word) : fieldA w = regBits w 6 := Fin.ext (fieldA_val w)

theorem fieldB_eq_regBits (w : Word) : fieldB w = regBits w 3 := Fin.ext (fieldB_val w)

theorem fieldC_eq_regBits (w : Word) : fieldC w = regBits w 0 :=
  Fin.ext ((fieldC_val w).trans (by simp [regBits, Fin.ofNat]))

theorem fieldAd_eq_regBits (w : Word) : fieldAd w = regBits w 25 := Fin.ext (fieldAd_val w)

theorem fieldValue_eq (w : Word) : fieldValue w = BitVec.ofNat 32 (w.toNat % 2 ^ 25) := by
  rw [fieldValue, extract_eq, Nat.pow_zero, Nat.div_one]

/-- The unassigned opcodes, whatever the numbering (R56). -/
theorem decodeWith_of_unassigned (m : OpMap) {w : Word} (h : 14 ≤ topBits w) :
    decodeWith m w = .error (.unassignedOpcode (topBits w)) :=
  decodeWith_eq_error.2 ⟨h, rfl⟩

/-- Every assigned opcode is legal, whatever the numbering and the other bits. -/
theorem decodeWith_of_assigned (m : OpMap) {w : Word} (h : topBits w < 14) : ∃ i, decodeWith m w = .ok i :=
  ⟨_, decodeWith_eq_ok.2 ⟨h, rfl⟩⟩

variable {m : OpMap} (hm : m.wf = true)
include hm

theorem exists_opcodeOf_eq_topBits {w : Word} (h : topBits w < 14) : ∃ op, topBits w = m.opcodeOf op :=
  ⟨m[topBits w], (m.opcodeOf_get hm h).symm⟩

theorem decodeWith_of_topBits {w : Word} {op : Op} (h : topBits w = m.opcodeOf op) :
    decodeWith m w = .ok (assemble op w) :=
  decodeWith_of_opcode hm ((opcodeField_eq_topBits w).trans h)

/-- A decoded instruction is the one its own operation reads from the word, and the word has that operation's value. -/
theorem topBits_and_assemble_of_decodeWith {w : Word} {i : Instr} (h : decodeWith m w = .ok i) :
    topBits w = m.opcodeOf i.op ∧ assemble i.op w = i := by
  obtain ⟨hlt, rfl⟩ := decodeWith_eq_ok.1 h
  rw [assemble_op]
  exact ⟨(m.opcodeOf_get hm hlt).symm, rfl⟩

omit hm

/-- Settles O3: the operation the top bits name reads the fields of its format. -/
theorem decodeReadsTheFieldsOfTheOpcode : Obligations.DecodeReadsTheFieldsOfTheOpcode := by
  intro m w hm
  have hdec := fun op => decodeWith_of_topBits hm (w := w) (op := op)
  simp only [← fieldA_eq_regBits, ← fieldB_eq_regBits, ← fieldC_eq_regBits, ← fieldAd_eq_regBits, ← fieldValue_eq]
  exact ⟨fun h => ⟨_, decodeWith_of_unassigned m h⟩, exists_opcodeOf_eq_topBits hm,
    hdec .cmov, hdec .sload, hdec .sstore, hdec .add, hdec .mul, hdec .div, hdec .nand, hdec .halt,
    hdec .map, hdec .unmap, hdec .out, hdec .inp, hdec .loadp, hdec .loadv⟩

/-! ### The bits an operation uses -/

/-- How many low bits of a word an operation reads, beside the opcode (R55, R57): those of C; of B and C; of A, B and C;
or the 28 bits of `A'` and `value`. -/
def Op.usedBits : Op → Nat
  | .halt => 0
  | .unmap | .out | .inp => 3
  | .map | .loadp => 6
  | .cmov | .sload | .sstore | .add | .mul | .div | .nand => 9
  | .loadv => 28

theorem Op.usedBits_le (op : Op) : op.usedBits ≤ 28 := by cases op <;> decide

theorem Op.usedBits_le_nine {op : Op} (h : op ≠ .loadv) : op.usedBits ≤ 9 := by
  cases op with
  | loadv => exact absurd rfl h
  | _ => decide

/-- A slice as a remainder, then a quotient: of a number it reads the lowest `lsb + width` bits only (R50). -/
theorem extract_eq_mod_div (x width lsb : Nat) : extract x width lsb = x % 2 ^ (lsb + width) / 2 ^ lsb := by
  rw [extract_eq, Nat.pow_add, Nat.mod_mul_right_div_self]

theorem extract_congr {x y n width lsb : Nat} (h : x % 2 ^ n = y % 2 ^ n) (hle : lsb + width ≤ n) :
    extract x width lsb = extract y width lsb := by
  have hdvd : 2 ^ (lsb + width) ∣ 2 ^ n := Nat.pow_dvd_pow 2 hle
  rw [extract_eq_mod_div, extract_eq_mod_div, ← Nat.mod_mod_of_dvd x hdvd, ← Nat.mod_mod_of_dvd y hdvd, h]

/-- An operation reads the bits it uses and no others: each of its fields lies within them. -/
theorem assemble_congr {op : Op} {w v : Word} (h : w.toNat % 2 ^ op.usedBits = v.toNat % 2 ^ op.usedBits) :
    assemble op w = assemble op v := by
  have hfield {width lsb : Nat} (hle : lsb + width ≤ op.usedBits) :
      extract w.toNat width lsb = extract v.toNat width lsb := extract_congr h hle
  cases op <;> simp (disch := decide) only [assemble, fieldA, fieldB, fieldC, fieldAd, fieldValue, hfield]

/-- Words of one opcode that agree in at least the bits its operation uses decode alike. -/
theorem decodeWith_congr {m : OpMap} (hm : m.wf = true) {w v : Word} {op : Op} {n : Nat}
    (hop : topBits w = m.opcodeOf op) (htop : topBits w = topBits v) (hn : op.usedBits ≤ n) (h : w.toNat % 2 ^ n = v.toNat % 2 ^ n) :
    decodeWith m w = decodeWith m v := by
  have hdvd : 2 ^ op.usedBits ∣ 2 ^ n := Nat.pow_dvd_pow 2 hn
  have hused : w.toNat % 2 ^ op.usedBits = v.toNat % 2 ^ op.usedBits := by
    rw [← Nat.mod_mod_of_dvd _ hdvd, h, Nat.mod_mod_of_dvd _ hdvd]
  rw [decodeWith_of_topBits hm hop, decodeWith_of_topBits hm (htop ▸ hop), assemble_congr hused]

/-- Settles O8: an illegal word shows its top bits only, and a legal one the bits its operation uses. -/
theorem unusedBitsAreIgnored : Obligations.UnusedBitsAreIgnored := by
  intro m w v hm htop
  refine ⟨decodeWith_of_assigned m, fun hne h => ?_, fun hop h => ?_, fun hop h => ?_, fun hop => ?_⟩
  · by_cases hlt : topBits w < 14
    · obtain ⟨op, hop⟩ := exists_opcodeOf_eq_topBits hm hlt
      have hnot : op ≠ .loadv := fun hl => hne (hl ▸ hop)
      exact decodeWith_congr hm hop htop (Op.usedBits_le_nine hnot) h
    · have hle : 14 ≤ topBits w := Nat.le_of_not_lt hlt
      rw [decodeWith_of_unassigned m hle, decodeWith_of_unassigned m (htop ▸ hle), htop]
  · obtain hop | hop := hop <;> exact decodeWith_congr hm hop htop le_rfl h
  · obtain hop | hop | hop := hop <;> exact decodeWith_congr hm hop htop le_rfl h
  · exact decodeWith_congr hm hop htop le_rfl (by rw [Op.usedBits, Nat.pow_zero, Nat.mod_one, Nat.mod_one])

end Sys2Proof
end

section
/-! SUPPORT. The encoder (R61). An encoding is the opcode above the operand bits, `Instr.operandBits`, and these fit the
bits the operation uses; so decoding gives the instruction back, and every other bit is 0. -/

namespace Sys2Proof

open Sys2Proof.Rules

/-- The operands of an instruction in the places of its format (R51, R52), unused bits 0. -/
def Instr.operandBits : Instr → Nat
  | .cmov a b c | .sload a b c | .sstore a b c | .add a b c | .mul a b c | .div a b c | .nand a b c => encR3 0 a b c
  | .halt => encR3 0 0 0 0
  | .map b c | .loadp b c => encR3 0 0 b c
  | .unmap c | .out c | .inp c => encR3 0 0 0 c
  | .loadv rd value => encImm 0 rd value.toNat

theorem encodeNat_eq (m : OpMap) (i : Instr) : encodeNat m i = m.opcodeOf i.op * 2 ^ 28 + i.operandBits := by
  cases i <;> simp only [encodeNat, Instr.op, Instr.operandBits, encR3, encImm] <;> omega

/-- The operands of a well-formed instruction fit the bits its operation uses. -/
theorem operandBits_lt {i : Instr} (hi : i.wf = true) : i.operandBits < 2 ^ i.op.usedBits := by
  cases i with
  | loadv rd value =>
    have hv : value.toNat < 2 ^ 25 := of_decide_eq_true hi
    simp only [Instr.operandBits, encImm, Instr.op, Op.usedBits]
    omega
  | _ => simp only [Instr.operandBits, encR3, Instr.op, Op.usedBits]; omega

/-- The opcode disappears below bit 28. -/
theorem encodeWith_mod (m : OpMap) (i : Instr) : (encodeWith m i).toNat % 2 ^ 28 = i.operandBits % 2 ^ 28 := by
  rw [encodeWith, BitVec.toNat_ofNat, encodeNat_eq]
  omega

/-- Below the opcode an encoding is 0 from the first bit on that its operation does not use. -/
theorem extract_encodeWith_unused (m : OpMap) {i : Instr} (hi : i.wf = true) {width lsb : Nat}
    (hlsb : i.op.usedBits ≤ lsb) (hle : lsb + width ≤ 28) : extract (encodeWith m i).toNat width lsb = 0 := by
  have hlt : i.operandBits < 2 ^ lsb := (operandBits_lt hi).trans_le (Nat.pow_le_pow_right two_pos hlsb)
  rw [extract_congr (encodeWith_mod m i) hle, extract_eq, Nat.div_eq_of_lt hlt, Nat.zero_mod]

/-! ### The fields of an encoding -/

theorem fieldA_encR3 (op : Nat) (a b c : RegIdx) : fieldA (BitVec.ofNat 32 (encR3 op a b c)) = a := by
  rw [Fin.ext_iff, fieldA_val, BitVec.toNat_ofNat, encR3]; omega

theorem fieldB_encR3 (op a : Nat) (b c : RegIdx) : fieldB (BitVec.ofNat 32 (encR3 op a b c)) = b := by
  rw [Fin.ext_iff, fieldB_val, BitVec.toNat_ofNat, encR3]; omega

theorem fieldC_encR3 (op a b : Nat) (c : RegIdx) : fieldC (BitVec.ofNat 32 (encR3 op a b c)) = c := by
  rw [Fin.ext_iff, fieldC_val, BitVec.toNat_ofNat, encR3]; omega

theorem fieldAd_encImm (op : Nat) (rd : RegIdx) {value : Nat} (hv : value < 2 ^ 25) :
    fieldAd (BitVec.ofNat 32 (encImm op rd value)) = rd := by
  rw [Fin.ext_iff, fieldAd_val, BitVec.toNat_ofNat, encImm]; omega

theorem fieldValue_encImm (op : Nat) (rd : RegIdx) {value : Word} (hv : value.toNat < 2 ^ 25) :
    fieldValue (BitVec.ofNat 32 (encImm op rd value.toNat)) = value := by
  rw [← BitVec.toNat_inj, fieldValue_toNat, BitVec.toNat_ofNat, encImm]; omega

/-- An operation reads back from an encoding the operands encoded in it. -/
theorem assemble_encodeWith (m : OpMap) {i : Instr} (hi : i.wf = true) : assemble i.op (encodeWith m i) = i := by
  cases i with
  | loadv rd value =>
    have hv : value.toNat < 2 ^ 25 := of_decide_eq_true hi
    simp only [assemble, Instr.op, encodeWith, encodeNat, fieldAd_encImm _ rd hv, fieldValue_encImm _ rd hv]
  | _ => simp only [assemble, Instr.op, encodeWith, encodeNat, fieldA_encR3, fieldB_encR3, fieldC_encR3]

/-- Only LOADV uses every bit, and its word is its own encoding. -/
theorem encodeWith_of_loadv {m : OpMap} {w : Word} (h : topBits w = m.opcodeOf .loadv) :
    encodeWith m (assemble .loadv w) = w := by
  apply BitVec.eq_of_toNat_eq
  rw [assemble, encodeWith, encodeNat, ← h, BitVec.toNat_ofNat, encImm, fieldAd_val, fieldValue_toNat, topBits]
  omega

variable {m : OpMap} (hm : m.wf = true)
include hm

/-- The top bits of an encoding are its operation's value. -/
theorem topBits_encodeWith {i : Instr} (hi : i.wf = true) : topBits (encodeWith m i) = m.opcodeOf i.op := by
  have hop := m.opcodeOf_lt hm i.op
  have hbits : i.operandBits < 2 ^ 28 := (operandBits_lt hi).trans_le (Nat.pow_le_pow_right two_pos i.op.usedBits_le)
  rw [topBits, encodeWith, BitVec.toNat_ofNat, encodeNat_eq]
  omega

theorem decodeWith_encodeWith {i : Instr} (hi : i.wf = true) : decodeWith m (encodeWith m i) = .ok i := by
  rw [decodeWith_of_topBits hm (topBits_encodeWith hm hi), assemble_encodeWith m hi]

omit hm

/-- Settles O4: the top bits give the operation back, and its fields the operands. -/
theorem decodeOfEncodeIsTheInstruction : Obligations.DecodeOfEncodeIsTheInstruction :=
  fun _ _ hm hi => decodeWith_encodeWith hm hi

/-- Settles O5: what was decoded is well formed, and its encoding is 0 above the bits its operation uses. -/
theorem encodeOfDecodeClearsUnusedBits : Obligations.EncodeOfDecodeClearsUnusedBits := by
  intro m w i hm hdec
  obtain ⟨htop, hasm⟩ := topBits_and_assemble_of_decodeWith hm hdec
  have hi : i.wf = true := hasm ▸ assemble_wf i.op w
  refine ⟨hi, decodeWith_encodeWith hm hi, (topBits_encodeWith hm hi).trans htop.symm, fun hop => ?_, fun hop => ?_,
    fun hop => ?_, fun hop => ?_, fun hop => ?_⟩
  · rw [hop] at htop hasm
    rw [← hasm, encodeWith_of_loadv htop]
  · exact extract_encodeWith_unused m hi (Op.usedBits_le_nine hop) (by decide)
  · obtain hop | hop := hop <;> exact extract_encodeWith_unused m hi (by rw [hop, Op.usedBits]) (by decide)
  · obtain hop | hop | hop := hop <;> exact extract_encodeWith_unused m hi (by rw [hop, Op.usedBits]) (by decide)
  · exact extract_encodeWith_unused m hi (by rw [hop, Op.usedBits]) (by decide)

/-! ### The Field Codec on numbers -/

/-- Settles O6: a field's slice is its quotient and remainder, which give the number encoded. -/
theorem fieldRoundTrip : Obligations.FieldRoundTrip := by
  simp only [Obligations.FieldRoundTrip, extract_eq]
  refine ⟨fun op a b c ho ha hb hc => ?_, fun op ad v ho ha hv => ?_⟩
  · obtain ⟨-, hop, hA, hB, hC⟩ := encR3_fields ho ha hb hc
    exact ⟨by omega, hA, hB, by omega⟩
  · obtain ⟨-, hop, hAd, hV⟩ := encImm_fields ho ha hv
    exact ⟨by omega, hAd, by omega⟩

/-- Settles O7: the slice as quotient and remainder; at 32 or above the quotient of a word is 0. -/
theorem extractIsASlice : Obligations.ExtractIsASlice := by
  intro word width lsb
  refine ⟨extract_eq word width lsb, fun hwidth => ?_, fun hword hlsb => ?_⟩
  · rw [extract_eq, hwidth, Nat.pow_zero, Nat.mod_one]
  · have hlt : word < 2 ^ lsb := hword.trans_le (Nat.pow_le_pow_right two_pos hlsb)
    rw [extract_eq, Nat.div_eq_of_lt hlt, Nat.zero_mod]

end Sys2Proof
end

section
/-! SUPPORT. Which faults an instruction raises (R110), and the decode fault of a step (R56, R72). -/

namespace Sys2Proof.Machine

open Sys2Proof.Rules

/-- A fault an instruction ends in is one of R110's for it. -/
theorem mayRaise_of_exec {i : Instr} {s t : State} {k : FaultKind} (h : exec i s = .next t)
    (hrun : s.status = .running) (hfault : t.status = .faulted k) : MayRaise s i k := by
  have hkept : s.status ≠ .faulted k := by simp [hrun]
  revert hfault
  exact exec_next_cases (P := fun u => u.status = .faulted k → MayRaise s i k) h
    (hold := fun _ _ _ hk => absurd hk hkept)
    (fault := fun j hj hk => Status.faulted.inj hk ▸ hj)
    (reg := fun _ _ _ _ hk => absurd hk hkept)
    (noreg := fun _ hk => absurd hk hkept)
    (store := fun _ _ _ _ _ _ hk => absurd hk hkept)
    (map := fun _ _ _ _ _ _ hk => absurd hk hkept)
    (unmap := fun _ _ _ _ hk => absurd hk hkept)
    (loadp := fun _ _ _ _ _ hk => absurd hk hkept)
    (out := fun _ _ _ hk => absurd hk hkept)
    (inp := fun _ _ _ _ _ _ hk => absurd hk hkept)
    (inerr := fun _ _ _ hk => absurd hk hkept)
    (halt := fun _ hk => nomatch hk)

/-- Settles O11: the decoder decides by the top bits, and no instruction raises `InvalidOpcode`. -/
theorem unassignedOpcodesFault : Obligations.UnassignedOpcodesFault := by
  intro s w hrun hword
  constructor
  · intro h14
    have hdec := decodeWith_of_unassigned s.cfg.opmap h14
    exact ⟨_, step_eq_next.2 ⟨hrun, .inr (.inl ⟨w, _, fetch_eq_ok_iff_wordAt.2 hword, hdec, rfl⟩)⟩, rfl⟩
  · intro h14 t hstep hfault
    obtain ⟨i, hdec⟩ := decodeWith_of_assigned s.cfg.opmap h14
    have habout : About s i := ⟨hrun, w, hword, hdec⟩
    exact mayRaise_of_exec (step_eq_exec_of_about habout ▸ hstep) hrun hfault

end Sys2Proof.Machine
end

section
/-! SUPPORT. The Execution Loop (R70 to R75, R79): a step is the meaning of the instruction at `pc`, the fetch is tested
against segment 0 as it is now, a handler's result decides `pc` and the run state, and an answer lifts a held IN. -/

namespace Sys2Proof.Machine

open Sys2Proof.Rules

/-! ### Fetch and dispatch -/

/-- Settles O9: the fetch answers the word at `pc`, and the step runs what it decodes to. -/
theorem stepRunsTheDecodedInstruction : Obligations.StepRunsTheDecodedInstruction :=
  fun _ _ habout => step_eq_exec_of_about habout

/-- A step ends in `OutOfBoundsFetch` only by its own fetch: no instruction raises that fault (R110, R112). -/
theorem len_le_pc_of_step_outOfBoundsFetch {s t : State} (h : step s = .next t)
    (hfault : t.status = .faulted .outOfBoundsFetch) : s.mem.len 0 ≤ s.pc.toNat := by
  obtain ⟨hrun, ⟨k, hfetch, -⟩ | ⟨_, _, _, _, rfl⟩ | ⟨_, _, _, _, hexec⟩⟩ := step_eq_next.1 h
  · exact (Memory.fetch_eq_error.1 hfetch).1
  · exact nomatch hfault
  · exact (mayRaise_of_exec hexec hrun hfault).elim

/-- Settles O10: at the length or past it the fetch faults, and below it answers the word that is decoded and run. -/
theorem fetchIsCheckedAgainstSegmentZero : Obligations.FetchIsCheckedAgainstSegmentZero := by
  intro s hrun
  constructor
  · intro hpast
    exact ⟨_, step_eq_next.2 ⟨hrun, .inl ⟨_, Memory.fetch_eq_error.2 ⟨hpast, rfl⟩, rfl⟩⟩, rfl⟩
  · intro hinside
    have hword := fetch_eq_ok_iff_wordAt.1 (Memory.fetch_eq_ok.2 ⟨hinside, rfl⟩)
    exact ⟨_, hword, fun i hdecode => step_eq_exec_of_about ⟨hrun, _, hword, hdecode⟩,
      fun t hstep hfault => (len_le_pc_of_step_outOfBoundsFetch hstep hfault).not_gt hinside⟩

/-! ### The result of a handler -/

/-- What the handler of an instruction returns when it does not fault (R74). -/
def handlerRouting (i : Instr) (s : State) : Routing :=
  match i with
  | .halt => .terminate
  | .loadp _ c => .jump (s.readReg c)
  | .cmov .. | .sload .. | .sstore .. | .add .. | .mul .. | .div .. | .nand .. | .map .. | .unmap .. | .out ..
  | .inp .. | .loadv .. => .advance

/-- Every instruction but HALT and LOADP advances. -/
theorem handlerRouting_of_ne {i : Instr} (s : State) (hhalt : i ≠ .halt) (hloadp : ∀ b c, i ≠ .loadp b c) :
    handlerRouting i s = .advance := by
  cases i with
  | halt => exact absurd rfl hhalt
  | loadp b c => exact absurd rfl (hloadp b c)
  | _ => rfl

/-- An instruction that writes a register advances. -/
theorem handlerRouting_of_written {i : Instr} {r : RegIdx} (s : State) (h : written i = some r) :
    handlerRouting i s = .advance :=
  handlerRouting_of_ne s (by rintro rfl; exact nomatch h) (by rintro b c rfl; exact nomatch h)

/-- The ways the execution of `i` in `s` ends, as far as `pc` and the run state go: a hold (R79), a fault (R118), or the
routing of the handler's result (R75). -/
inductive ExecEnd (i : Instr) (s : State) : State → Prop
  | hold (hop : i.op = .inp) (hun : Unanswered s) : ExecEnd i s s
  | fault (k : FaultKind) : ExecEnd i s (s.fault k)
  | routed {t : State} (r : Routing) (hr : handlerRouting i s = r) (hpc : t.pc = (s.route r).pc)
      (hstatus : t.status = (s.route r).status) : ExecEnd i s t

/-- Every instruction ends in one of these ways. -/
theorem execEnd_of_exec {i : Instr} {s t : State} (h : exec i s = .next t) : ExecEnd i s t := by
  have hrouting {j : Instr} (hi : i = j) : handlerRouting i s = handlerRouting j s := hi ▸ rfl
  exact exec_next_cases (P := ExecEnd i s) h
    (hold := fun _ hi ha => .hold (hi ▸ rfl) (State.nextAnswer_eq_none.1 ha))
    (fault := fun k _ => .fault k)
    (reg := fun _ _ hw _ => .routed .advance (handlerRouting_of_written s hw) rfl rfl)
    (noreg := fun ⟨_, _, _, hi⟩ => .routed .advance (hrouting hi) rfl rfl)
    (store := fun _ _ _ _ hi _ => .routed .advance (hrouting hi) rfl rfl)
    (map := fun _ _ _ _ hi _ => .routed .advance (hrouting hi) rfl rfl)
    (unmap := fun _ _ hi _ => .routed .advance (hrouting hi) rfl rfl)
    (loadp := fun _ c _ hi _ => .routed (.jump (s.readReg c)) (hrouting hi) rfl rfl)
    (out := fun _ hi _ => .routed .advance (hrouting hi) rfl rfl)
    (inp := fun _ _ _ hi _ _ => .routed .advance (hrouting hi) rfl rfl)
    (inerr := fun _ hi _ => .routed .advance (hrouting hi) rfl rfl)
    (halt := fun hi => .routed .terminate (hrouting hi) rfl rfl)

/-- `pc + 1` is modulo `2^32` (R75). -/
theorem State.toNat_route_advance_pc (s : State) : (s.route .advance).pc.toNat = (s.pc.toNat + 1) % 2 ^ 32 :=
  BitVec.toNat_add s.pc 1

/-- HALT always halts (R100). -/
theorem status_of_exec_halt {s t : State} (h : exec .halt s = .next t) : t.status = .halted := by
  obtain rfl := execHalt_next.1 h
  rfl

/-- Settles O14: the handler's result decides, but for a hold, which is an IN's, and for a fault, which keeps `pc`. -/
theorem handlerResults : Obligations.HandlerResults := by
  intro i s t hrun hexec
  have hhalts : t.status = .halted ↔ i = .halt := by
    constructor
    · intro hhalted
      obtain hs | ⟨-, hi⟩ | ⟨k, hk⟩ := exec_status hexec
      · simp [hs, hrun] at hhalted
      · exact hi
      · simp [hk] at hhalted
    · rintro rfl
      exact status_of_exec_halt hexec
  refine ⟨hhalts, ?_⟩
  cases execEnd_of_exec hexec with
  | hold hop hun =>
    refine ⟨?_, fun _ _ hnot _ => absurd ⟨hop, hun⟩ hnot, fun _ _ => rfl⟩
    rintro b c rfl
    exact nomatch hop
  | fault k => exact ⟨fun _ _ _ hk => (nomatch hk), fun _ _ _ hk => (nomatch hk), fun _ _ => rfl⟩
  | routed r hr hpc hstatus =>
    refine ⟨?_, fun hhalt hloadp _ _ => ?_, fun k hk => ?_⟩
    · rintro b c rfl -
      subst hr
      exact hpc
    · obtain rfl := hr.symm.trans (handlerRouting_of_ne s hhalt hloadp)
      rw [hpc, State.toNat_route_advance_pc]
    · cases r <;> simp [hk, hrun] at hstatus

/-! ### The hold -/

/-- The answer the host delivers to an unanswered request is the one that request finds (R24, R79). -/
theorem State.input_deliver_of_unanswered {s : State} (h : Unanswered s) (a : InputAnswer) :
    (s.deliver a).input = [a] := by
  rw [State.deliver_input, if_pos h.2, h.1, List.nil_append]

/-- An answered IN consumes the answer and advances, or is a read error under policy `fault` (R104, R106). -/
theorem execIn_of_answer {s : State} {a : InputAnswer} (c : RegIdx) (ha : s.nextAnswer = some a) :
    (∃ t, execIn c s = .next t ∧ t.status = s.status ∧ t.input = s.input.tail ∧ t.inputEnd = s.inputEnd ∧
      t.inp = s.inp ++ [a] ∧ t.pc = s.pc + 1) ∨
    (a = .err ∧ s.cfg.inputErrorPolicy = .fault ∧ execIn c s = .next (s.fault .inputError)) := by
  cases a with
  | byte b => exact .inl ⟨_, execIn_next.2 (.inr (.inl ⟨b, ha, rfl⟩)), rfl, rfl, rfl, rfl, rfl⟩
  | eof => exact .inl ⟨_, execIn_next.2 (.inr (.inr (.inl ⟨ha, rfl⟩))), rfl, rfl, rfl, rfl, rfl⟩
  | err =>
    cases hp : s.cfg.inputErrorPolicy with
    | ignore => exact .inl ⟨_, execIn_next.2 (.inr (.inr (.inr (.inl ⟨ha, hp, rfl⟩)))), rfl, rfl, rfl, rfl, rfl⟩
    | fault => exact .inr ⟨rfl, rfl, execIn_next.2 (.inr (.inr (.inr (.inr ⟨ha, hp, rfl⟩))))⟩

/-- An unanswered IN holds (R79, R105). -/
theorem execIn_of_unanswered {s : State} (c : RegIdx) (h : Unanswered s) : execIn c s = .next s :=
  execIn_next.2 (.inl ⟨State.nextAnswer_eq_none.2 h, rfl⟩)

/-- A delivery leaves the instruction at `pc`. -/
theorem about_deliver {s : State} {i : Instr} (h : About s i) (a : InputAnswer) : About (s.deliver a) i := by
  simpa [about_iff] using about_iff.1 h

/-- Settles O17: every meaning answers, and the delivered answer is the one the held IN finds at its next step. -/
theorem stepIsEnabledAndInputHolds : Obligations.StepIsEnabledAndInputHolds := by
  intro s hrun
  refine ⟨step_next_of_running hrun, fun c habout hun => ⟨?_, fun a => ?_⟩⟩
  · exact (step_eq_exec_of_about habout).trans (execIn_of_unanswered c hun)
  · have hinput := State.input_deliver_of_unanswered hun a
    rw [step_eq_exec_of_about (about_deliver habout a)]
    obtain ⟨t, hexec, hstatus, htail, hend, hinp, hpc⟩ | ⟨herr, hpolicy, hexec⟩ :=
      execIn_of_answer c (State.nextAnswer_eq_some.2 (.inl ⟨[], hinput⟩))
    · have hunt : Unanswered t :=
        ⟨by rw [htail, hinput, List.tail_cons], by rw [hend, State.deliver_inputEnd, hun.2]⟩
      refine ⟨t, hexec, .inl ⟨?_, hunt, ?_, ?_⟩⟩
      · rw [hstatus, State.deliver_status, hrun]
      · rw [hinp, State.deliver_inp]
      · rw [hpc, State.deliver_pc]
        exact State.toNat_route_advance_pc s
    · exact ⟨_, hexec, .inr ⟨herr, State.deliver_cfg s a ▸ hpolicy, rfl⟩⟩

end Sys2Proof.Machine
end

section
/-! SUPPORT. Register arithmetic and logic (R80 to R86): each instruction of 41_alu.md is one register write and an
advance, or a fault of DIV. -/

namespace Sys2Proof.Machine

/-! ### The frame of an instruction that writes registers and advances -/

/-- `t` is `s` advanced, but for what the registers `ws` hold. -/
def AdvancedKeepingAllBut (ws : List RegIdx) (s t : State) : Prop :=
  RegsKept ws s t ∧ Advanced s t ∧ MemoryKept s t ∧ OutputKept s t ∧ InputKept s t

/-- To advance leaves everything but `pc` as it was (R75). -/
theorem advancedKeepingAllBut_advance (ws : List RegIdx) (s : State) :
    AdvancedKeepingAllBut ws s (s.route .advance) :=
  ⟨fun _ _ => rfl, ⟨s.toNat_route_advance_pc, rfl, rfl⟩, ⟨fun _ _ => rfl, fun _ => rfl, rfl, rfl⟩, rfl, rfl, rfl, rfl⟩

/-- A register write before the advance changes that register only (R10). -/
theorem advancedKeepingAllBut_writeReg_advance (s : State) (a : RegIdx) (v : Word) :
    AdvancedKeepingAllBut [a] s ((s.writeReg a v).route .advance) := by
  obtain ⟨-, hrest⟩ := advancedKeepingAllBut_advance [a] s
  exact ⟨fun r hr => s.readReg_writeReg_of_ne (List.ne_of_not_mem_cons hr) v, hrest⟩

/-- The register written before the advance holds the value written. -/
theorem State.readReg_route_advance_writeReg (s : State) (a : RegIdx) (v : Word) :
    ((s.writeReg a v).route .advance).readReg a = v := by
  rw [State.readReg_route_advance, State.readReg_writeReg_self]

/-! ### CMOV, ADD, MUL, DIV, NAND -/

/-- Settles O20: CMOV writes the old `x[B]` or, on a zero condition, no register. -/
theorem cmovMovesWhenNonzero : Obligations.CmovMovesWhenNonzero := by
  intro a b c s
  by_cases hc : s.readReg c = 0
  · exact ⟨_, execCmov_next.2 (.inr ⟨hc, rfl⟩), (absurd hc ·), fun _ => rfl, advancedKeepingAllBut_advance [a] s⟩
  · exact ⟨_, execCmov_next.2 (.inl ⟨hc, rfl⟩), fun _ => s.readReg_route_advance_writeReg a _, (absurd · hc),
      advancedKeepingAllBut_writeReg_advance s a _⟩

/-- Settles O21: addition of words is modulo `2^32`. -/
theorem addIsModular : Obligations.AddIsModular := by
  intro a b c s
  refine ⟨_, execAdd_next.2 rfl, ?_, advancedKeepingAllBut_writeReg_advance s a _⟩
  rw [State.readReg_route_advance_writeReg, BitVec.toNat_add]

/-- Settles O22: multiplication of words is modulo `2^32`. -/
theorem mulIsModular : Obligations.MulIsModular := by
  intro a b c s
  refine ⟨_, execMul_next.2 rfl, ?_, advancedKeepingAllBut_writeReg_advance s a _⟩
  rw [State.readReg_route_advance_writeReg, BitVec.toNat_mul]

/-- Settles O23: division of words is unsigned, and the test for zero comes before the write. -/
theorem divIsFloorOrFaults : Obligations.DivIsFloorOrFaults := by
  intro a b c s
  constructor
  · intro hc
    refine ⟨_, execDiv_next.2 (.inl ⟨hc, rfl⟩), ?_, advancedKeepingAllBut_writeReg_advance s a _⟩
    rw [State.readReg_route_advance_writeReg, BitVec.toNat_udiv]
  · exact fun hc => execDiv_next.2 (.inr ⟨hc, rfl⟩)

/-- NAND's result bit by bit: 1 unless both bits are 1 (R84). -/
theorem getLsbD_not_and (x y : Word) {k : Nat} (hk : k < 32) :
    (~~~(x &&& y)).getLsbD k = true ↔ ¬(x.getLsbD k = true ∧ y.getLsbD k = true) := by
  rw [BitVec.getLsbD_not, BitVec.getLsbD_and, decide_eq_true hk, Bool.true_and, Bool.not_eq_true', ← Bool.not_eq_true,
    Bool.and_eq_true]

/-- Settles O24: the complement of a word is its difference from the word of all ones. -/
theorem nandIsComplementOfAnd : Obligations.NandIsComplementOfAnd := by
  intro a b c s
  refine ⟨_, execNand_next.2 rfl, ?_, fun k hk => ?_, advancedKeepingAllBut_writeReg_advance s a _⟩
  · rw [State.readReg_route_advance_writeReg, BitVec.toNat_not, BitVec.toNat_and]
  · rw [State.readReg_route_advance_writeReg]
    exact getLsbD_not_and _ _ hk

end Sys2Proof.Machine
end

section
/-! SUPPORT. Memory instructions (R90 to R96): each instruction of 42_memory_ops.md but LOADV is one Segment Store
operation, whose answer decides between the completed instruction and the fault (R77). -/

namespace Sys2Proof.Machine

open Sys2Proof.Rules

/-! ### The tests of the Segment Store in the statements' terms -/

/-- An address is invalid exactly where R33's test fails. -/
theorem valid_eq_false_iff {s : State} {h o : Nat} : s.mem.valid h o = false ↔ ¬ValidAddress s h o := by
  rw [← Bool.not_eq_true, Memory.valid_iff]

/-- A handle is unmapped exactly where R32's test fails. -/
theorem mapped_eq_false_iff {s : State} {h : Nat} : s.mem.mapped h = false ↔ ¬Mapped s h := by
  rw [← Bool.not_eq_true, Memory.mapped_iff]

/-- An unmapped handle is out of range or free (R32). -/
theorem not_mapped_iff {s : State} {h : Nat} : ¬Mapped s h ↔ s.mem.count ≤ h ∨ h ∈ s.mem.free := by
  rw [not_and_or, Nat.not_lt, not_not]

/-- The store's capacity test is `OverWords` (R34, R38). -/
theorem exceedsWords_iff {s : State} {stay added : Nat} :
    exceedsWords s.cfg stay added = true ↔ OverWords s stay added := by
  simp only [exceedsWords_eq_any, Option.any_eq_true, decide_eq_true_eq, OverWords, gt_iff_lt]

theorem exceedsWords_eq_false_iff {s : State} {stay added : Nat} :
    exceedsWords s.cfg stay added = false ↔ ¬OverWords s stay added := by
  rw [← Bool.not_eq_true, exceedsWords_iff]

/-- A read answers the word at its list position (R36). -/
theorem wordAt_of_read {s : State} {h o : Nat} {v : Word} (hr : s.mem.read h o = .ok v) : wordAt s h o = some v := by
  obtain ⟨hvalid, hget⟩ := Memory.read_eq_ok.1 hr
  obtain ⟨-, ho⟩ := Memory.valid_iff.1 hvalid
  rw [wordAt, Segment.getElem?_words, if_pos ho, hget]

/-! ### The handle MAP gives -/

/-- Admitted parameters allow no more slots than a word has values (D8). -/
theorem Config.maxHandles_le {cfg : Config} (h : cfg.wf = true) : cfg.maxHandles ≤ 2 ^ 32 := by
  simp only [Config.wf, Bool.and_eq_true, decide_eq_true_eq] at h
  obtain ⟨⟨-, hle⟩, -⟩ := h
  exact hle

/-- A handle that fits a register is read back from it (R16). -/
theorem toNat_handleWord {h : Nat} (hh : h < 2 ^ 32) : (handleWord h).toNat = h := by
  rw [handleWord, BitVec.toNat_ofNat, Nat.mod_eq_of_lt hh]

/-- The handle comes from the top of the free-list or, where that is empty, is a slot appended (R34). -/
theorem Memory.alloc_handle {m n : Memory} {cfg : Config} {len h : Nat} (ha : m.alloc cfg len = .ok (h, n)) :
    (∃ rest, m.free = h :: rest ∧ n.free = rest ∧ n.count = m.count) ∨
    (m.free = [] ∧ h = m.count ∧ n.free = [] ∧ n.count = m.count + 1) := by
  obtain ⟨-, ⟨rest, hfree, rfl⟩ | ⟨hfree, -, rfl, rfl⟩⟩ := Memory.alloc_eq_ok.1 ha
  · exact .inl ⟨rest, hfree, rfl, List.length_set⟩
  · exact .inr ⟨hfree, rfl, hfree, List.length_append⟩

/-- The handle is not segment 0's, was not mapped, and is within the bound on handles (R18, R34, D8). -/
theorem Memory.alloc_fresh {m n : Memory} {cfg : Config} (hi : m.StoreInv cfg) {len h : Nat}
    (ha : m.alloc cfg len = .ok (h, n)) : h ≠ 0 ∧ ¬(h < m.count ∧ h ∉ m.free) ∧ h < cfg.maxHandles := by
  obtain ⟨hcount, hzero, -, hfreelt, -, -, hmax⟩ := hi
  obtain ⟨-, ⟨rest, hfree, -⟩ | ⟨-, hne, rfl, -⟩⟩ := Memory.alloc_eq_ok.1 ha
  · have hmem : h ∈ m.free := hfree ▸ List.mem_cons_self
    exact ⟨fun h0 => hzero (h0 ▸ hmem), fun hmapped => hmapped.2 hmem, (hfreelt h hmem).trans_le hmax⟩
  · exact ⟨Nat.one_le_iff_ne_zero.1 hcount, fun hmapped => hmapped.1.false, hmax.lt_of_ne hne⟩

/-! ### The frame of an instruction that replaces memory and advances -/

/-- `t` is `s` advanced, but for memory and for what the registers `ws` hold. -/
def AdvancedKeepingAllButMemory (ws : List RegIdx) (s t : State) : Prop :=
  RegsKept ws s t ∧ Advanced s t ∧ OutputKept s t ∧ InputKept s t

/-- What is kept after memory was replaced was kept from before. -/
theorem AdvancedKeepingAllBut.of_setMem {ws : List RegIdx} {s t : State} {m : Memory}
    (h : AdvancedKeepingAllBut ws (s.setMem m) t) : AdvancedKeepingAllButMemory ws s t := by
  obtain ⟨hregs, hadvanced, -, hout, hin⟩ := h
  exact ⟨hregs, hadvanced, hout, hin⟩

theorem advancedKeepingAllButMemory_setMem_advance (s : State) (m : Memory) :
    AdvancedKeepingAllButMemory [] s ((s.setMem m).route .advance) :=
  (advancedKeepingAllBut_advance [] (s.setMem m)).of_setMem

theorem advancedKeepingAllButMemory_setMem_writeReg_advance (s : State) (m : Memory) (a : RegIdx) (v : Word) :
    AdvancedKeepingAllButMemory [a] s (((s.setMem m).writeReg a v).route .advance) :=
  (advancedKeepingAllBut_writeReg_advance (s.setMem m) a v).of_setMem

/-! ### SLOAD, SSTORE, MAP, UNMAP, LOADP, LOADV -/

/-- Settles O25: the read answers the addressed word, or the fault of an invalid address. -/
theorem sloadReadsTheAddressedWord : Obligations.SloadReadsTheAddressedWord := by
  intro a b c s h o haddress
  obtain ⟨rfl, rfl⟩ := Prod.mk.inj haddress
  refine ⟨rfl, rfl, fun hvalid => ?_, fun hinvalid => ?_⟩
  · have hread := Memory.read_eq_ok.2 ⟨Memory.valid_iff.2 hvalid, rfl⟩
    refine ⟨_, execSload_next.2 (.inl ⟨_, hread, rfl⟩), ?_, advancedKeepingAllBut_writeReg_advance s a _⟩
    rw [State.readReg_route_advance_writeReg]
    exact wordAt_of_read hread
  · have hread := Memory.read_eq_error.2 ⟨valid_eq_false_iff.2 hinvalid, rfl⟩
    exact execSload_next.2 (.inr ⟨_, hread, rfl⟩)

/-- Settles O26: the write is read back at its address and nowhere else, or is the fault of an invalid address. -/
theorem sstoreWritesOnlyTheAddressedWord : Obligations.SstoreWritesOnlyTheAddressedWord := by
  intro a b c s h o hwf haddress
  obtain ⟨rfl, rfl⟩ := Prod.mk.inj haddress
  refine ⟨rfl, rfl, fun hvalid => ?_, fun hinvalid => ?_⟩
  · have hwrite := (Memory.write_eq_ok (v := s.readReg c)).2 ⟨Memory.valid_iff.2 hvalid, rfl⟩
    have hread := Memory.read_write hwf hwrite
    exact ⟨_, execSstore_next.2 (.inl ⟨_, hwrite, rfl⟩), (hread _ _).1.trans (if_pos ⟨rfl, rfl⟩),
      fun h' o' hne => (hread h' o').1.trans (if_neg fun hat => hne (Prod.ext hat.1 hat.2)),
      fun h' => (hread h' 0).2, s.mem.count_setSlot _ _, s.mem.free_setSlot _ _,
      advancedKeepingAllButMemory_setMem_advance s _⟩
  · have hwrite := (Memory.write_eq_error (v := s.readReg c)).2 ⟨valid_eq_false_iff.2 hinvalid, rfl⟩
    exact execSstore_next.2 (.inr ⟨_, hwrite, rfl⟩)

/-- Settles O27: an allocation that is not past a capacity bound gives a fresh handle, which a register can hold. -/
theorem mapAllocatesZeroedSegment : Obligations.MapAllocatesZeroedSegment := by
  rintro b c s n ⟨hcfg, -, hstore, -, -⟩ rfl
  constructor
  · intro hbound
    have halloc := Memory.alloc_eq_error.2 ⟨hbound.imp_right exceedsWords_iff.2, rfl⟩
    exact execMap_next.2 (.inr ⟨_, halloc, rfl⟩)
  · intro hslots hwords
    cases halloc : s.mem.alloc s.cfg (s.readReg c).toNat with
    | error k =>
      obtain ⟨hbound, -⟩ := Memory.alloc_eq_error.1 halloc
      exact absurd (hbound.imp_right exceedsWords_iff.1) (not_or.2 ⟨hslots, hwords⟩)
    | ok result =>
      obtain ⟨h, m⟩ := result
      obtain ⟨hzero, hunmapped, hmax⟩ := Memory.alloc_fresh hstore halloc
      obtain ⟨hmapped, hlen, hread, hothers⟩ := Memory.read_alloc hstore halloc
      refine ⟨_, h, execMap_next.2 (.inl ⟨h, m, halloc, rfl⟩), Memory.alloc_handle halloc, ?_, hzero, hunmapped,
        Memory.mapped_iff.1 hmapped, hlen, hread, hothers,
        advancedKeepingAllButMemory_setMem_writeReg_advance s m b _⟩
      rw [State.readReg_route_advance_writeReg, toNat_handleWord (hmax.trans_le (Config.maxHandles_le hcfg))]

/-- Settles O28: the free operation's test is the negation of 'mapped and not 0', and it empties the slot. -/
theorem unmapFreesTheHandle : Obligations.UnmapFreesTheHandle := by
  rintro c s h rfl
  constructor
  · intro hbad
    have hfree := Memory.dealloc_eq_error.2 ⟨hbad.imp_right not_mapped_iff.1, rfl⟩
    exact execUnmap_next.2 (.inr ⟨_, hfree, rfl⟩)
  · rintro hzero ⟨hlt, hnotfree⟩
    have hfree := Memory.dealloc_eq_ok.2 ⟨⟨hzero, hlt, hnotfree⟩, rfl⟩
    obtain ⟨hread, hothers⟩ := Memory.read_dealloc hfree
    exact ⟨_, execUnmap_next.2 (.inl ⟨_, hfree, rfl⟩), rfl, List.length_set,
      (Memory.segment_set hlt _ _ _).trans (if_pos rfl), hread, hothers,
      advancedKeepingAllButMemory_setMem_advance s _⟩

/-- Settles O29: the copy tests the handle, then the capacity; slot 0 is mapped, so it reads as the source after it. -/
theorem loadpCopiesAndJumps : Obligations.LoadpCopiesAndJumps := by
  rintro b c s h ⟨-, -, ⟨hcount, hzerofree, -⟩, -, -⟩ rfl
  refine ⟨fun hzero => ?_, fun hne hunmapped => ?_, fun hne hmapped hover => ?_, fun hne hmapped hfits => ?_⟩
  · have hcopy := (Memory.dupIntoZero_eq_ok (m := s.mem) (cfg := s.cfg)).2 (.inl ⟨hzero, rfl⟩)
    exact execLoadp_next.2 (.inl ⟨s.mem, hcopy, rfl⟩)
  · have hcopy := (Memory.dupIntoZero_eq_error (cfg := s.cfg)).2
      ⟨hne, .inl ⟨mapped_eq_false_iff.2 hunmapped, rfl⟩⟩
    exact execLoadp_next.2 (.inr ⟨_, hcopy, rfl⟩)
  · have hcopy := Memory.dupIntoZero_eq_error.2
      ⟨hne, .inr ⟨Memory.mapped_iff.2 hmapped, exceedsWords_iff.2 hover, rfl⟩⟩
    exact execLoadp_next.2 (.inr ⟨_, hcopy, rfl⟩)
  · have hcopy := Memory.dupIntoZero_eq_ok.2
      (.inr ⟨hne, Memory.mapped_iff.2 hmapped, exceedsWords_eq_false_iff.2 hfits, rfl⟩)
    obtain ⟨hread, hlen, hothers⟩ := Memory.read_dupIntoZero (Memory.mapped_iff.2 ⟨hcount, hzerofree⟩) hcopy
    exact ⟨_, execLoadp_next.2 (.inl ⟨_, hcopy, rfl⟩), rfl, rfl, rfl, hlen, hread, hothers,
      s.mem.count_setSlot _ _, s.mem.free_setSlot _ _, fun _ _ => rfl, rfl, rfl, rfl, rfl⟩

/-- The mask keeps the low 25 bits (R59). -/
theorem toNat_immediate (value : Word) : (immediate value).toNat = value.toNat % 2 ^ 25 :=
  (BitVec.toNat_and value 0x1FFFFFF).trans (Nat.and_two_pow_sub_one_eq_mod value.toNat 25)

/-- The immediate of a well-formed LOADV is the whole value (R59, R61). -/
theorem immediate_of_wf {rd : RegIdx} {value : Word} (h : (Instr.loadv rd value).wf = true) :
    immediate value = value := by
  have hlt : value.toNat < 2 ^ 25 := of_decide_eq_true h
  exact BitVec.eq_of_toNat_eq ((toNat_immediate value).trans (Nat.mod_eq_of_lt hlt))

/-- Settles O30: LOADV writes its immediate. -/
theorem loadvZeroExtends : Obligations.LoadvZeroExtends := by
  intro rd value s
  refine ⟨_, execLoadv_next.2 rfl, ?_, fun hwf => ?_, advancedKeepingAllBut_writeReg_advance s rd _⟩
  · rw [State.readReg_route_advance_writeReg, toNat_immediate]
  · rw [State.readReg_route_advance_writeReg, immediate_of_wf hwf]

end Sys2Proof.Machine
end

section
/-! SUPPORT. HALT (R100, R101): its handler answers `Terminate` with no effect, and the routing of that result (R75)
sets the run state alone. -/

namespace Sys2Proof.Machine

/-- Settles O31: HALT routes `Terminate`, which is the state with the run state `Halted` and `pc` kept (D6). -/
theorem haltTerminates : Obligations.HaltTerminates := fun _ => execHalt_next.2 rfl

end Sys2Proof.Machine
end

section
/-! SUPPORT. OUT and IN (R102 to R106): the end of each answers an advanced state that differs from the old one in
what was emitted or consumed, and, for IN, in the register it writes. -/

namespace Sys2Proof.Machine

/-! ### OUT -/

/-- Settles O32: OUT emits the scalar value of `x[C]` and advances, or is its fault. -/
theorem outEmitsScalarValues : Obligations.OutEmitsScalarValues := by
  refine fun c s => ⟨fun hscalar => ?_, fun hbad => ?_⟩
  · have hc := isScalar_iff.2 hscalar
    obtain ⟨hregs, hadvanced, hmem, -, hin⟩ := advancedKeepingAllBut_advance [] (s.emit (scalarOf (s.readReg c)))
    exact ⟨_, _, execOut_next.2 (.inl ⟨hc, rfl⟩), toNat_scalarOf hc, rfl, hregs, hadvanced, hmem, hin⟩
  · have hc := Bool.eq_false_iff.2 (mt isScalar_iff.1 hbad)
    exact execOut_next.2 (.inr ⟨hc, rfl⟩)

/-! ### IN -/

/-- A byte is zero-extended (R104). -/
theorem toNat_byteWord (b : Byte) : (byteWord b).toNat = b.toNat :=
  BitVec.toNat_setWidth_of_le (by decide)

/-- `t` is `s` advanced with the answer `a` consumed and recorded, but for what the registers `ws` hold. -/
def AdvancedConsuming (a : InputAnswer) (ws : List RegIdx) (s t : State) : Prop :=
  t.input = s.input.tail ∧ t.inputEnd = s.inputEnd ∧ t.inp = s.inp ++ [a] ∧
  RegsKept ws s t ∧ Advanced s t ∧ MemoryKept s t ∧ OutputKept s t

/-- What is kept after an answer was consumed was kept from before, but for that answer. -/
theorem AdvancedKeepingAllBut.of_consume {a : InputAnswer} {ws : List RegIdx} {s t : State}
    (h : AdvancedKeepingAllBut ws (s.consume a) t) : AdvancedConsuming a ws s t := by
  obtain ⟨hregs, hadvanced, hmem, hout, hinput, hend, hinp⟩ := h
  exact ⟨hinput, hend, hinp, hregs, hadvanced, hmem, hout⟩

/-- The IN that takes the answer `a`: it writes the value of a byte or of end-of-stream, and no register on an ignored
error (R104, R106). -/
theorem execIn_takes {s : State} {a : InputAnswer} (c : RegIdx) (ha : s.nextAnswer = some a)
    (hpolicy : a = .err → s.cfg.inputErrorPolicy = .ignore) :
    ∃ t, execIn c s = .next t ∧ AdvancedConsuming a [c] s t ∧
      (∀ b, a = .byte b → t.readReg c = byteWord b) ∧ (a = .eof → t.readReg c = eofWord) ∧
      (a = .err → t.readReg c = s.readReg c) := by
  cases a with
  | byte b =>
    refine ⟨_, execIn_next.2 (.inr (.inl ⟨b, ha, rfl⟩)),
      (advancedKeepingAllBut_writeReg_advance _ c _).of_consume, ?_, nofun, nofun⟩
    rintro _ ⟨⟩
    exact State.readReg_route_advance_writeReg _ c _
  | eof =>
    exact ⟨_, execIn_next.2 (.inr (.inr (.inl ⟨ha, rfl⟩))),
      (advancedKeepingAllBut_writeReg_advance _ c _).of_consume, nofun,
      fun _ => State.readReg_route_advance_writeReg _ c _, nofun⟩
  | err =>
    exact ⟨_, execIn_next.2 (.inr (.inr (.inr (.inl ⟨ha, hpolicy rfl, rfl⟩)))),
      (advancedKeepingAllBut_advance [c] _).of_consume, nofun, nofun, fun _ => rfl⟩

/-- Settles O33: IN holds without an answer, takes the one there is, or is the fault of a read error. -/
theorem inConsumesOneAnswer : Obligations.InConsumesOneAnswer := by
  refine fun c s => ⟨execIn_of_unanswered c, fun a hanswered hpolicy => ?_, fun hanswered hfault => ?_⟩
  · obtain ⟨t, hexec, ⟨hinput, hend, hinp, hframe⟩, hbyte, heof, herr⟩ :=
      execIn_takes c (State.nextAnswer_eq_some.2 hanswered) hpolicy
    exact ⟨t, hexec, hinput, hend, hinp, fun b hb => (congrArg BitVec.toNat (hbyte b hb)).trans (toNat_byteWord b),
      heof, herr, hframe⟩
  · exact execIn_next.2 (.inr (.inr (.inr (.inr ⟨State.nextAnswer_eq_some.2 hanswered, hfault, rfl⟩))))

end Sys2Proof.Machine
end

section
/-! SUPPORT. Taking a fault (R110 to R119): which fault an instruction may raise, that fault entry sets the run state
alone, and that the faulted state therefore still shows the word and the operands of the faulting instruction. -/

namespace Sys2Proof.Machine

open Sys2Proof.Rules

/-- Settles O15: of the ways an instruction can end, only its own faults leave the running machine faulted. -/
theorem faultsComeFromTheirInstructions : Obligations.FaultsComeFromTheirInstructions :=
  fun _ _ _ _ hrun hexec hfault => mayRaise_of_exec hexec hrun hfault

/-! ### Fault entry -/

/-- An instruction that ends in a fault took it in the state before it (R77, R118): a hold leaves the machine running,
and routing a handler's result never faults. -/
theorem eq_fault_of_exec {i : Instr} {s t : State} {k : FaultKind} (h : exec i s = .next t)
    (hrun : s.status = .running) (hfault : t.status = .faulted k) : t = s.fault k := by
  cases execEnd_of_exec h with
  | hold => simp [hrun] at hfault
  | fault j =>
    obtain rfl : j = k := Status.faulted.inj hfault
    rfl
  | routed r _ _ hstatus => cases r <;> simp [hfault, hrun] at hstatus

/-- A step that ends in a fault, be it of the fetch, of the decoder or of the instruction, is fault entry (R118). -/
theorem eq_fault_of_step {s t : State} {k : FaultKind} (h : step s = .next t) (hfault : t.status = .faulted k) :
    t = s.fault k := by
  obtain ⟨j, -, rfl⟩ | ⟨i, -, hexec⟩ := fault_or_exec_of_step h
  · obtain rfl : j = k := Status.faulted.inj hfault
    rfl
  · exact eq_fault_of_exec hexec (running_of_step h) hfault

/-- Settles O13: the faulted state is the state before under fault entry, which sets the run state. -/
theorem faultsArePrecise : Obligations.FaultsArePrecise :=
  fun _ _ _ hstep hfault => eq_fault_of_step hstep hfault

/-! ### The diagnostic -/

/-- The word the diagnostic reads back is the one at `pc` in segment 0 (R111). -/
theorem State.currentWord_eq_wordAt (s : State) : s.currentWord = wordAt s 0 s.pc.toNat := by
  ext w
  rw [← fetch_eq_ok_iff_wordAt, State.currentWord]
  cases s.mem.fetch s.pc <;> simp [Except.toOption]

/-- The instruction the diagnostic reads back is the one the step is about. -/
theorem currentInstr_of_about {s : State} {i : Instr} (h : About s i) : s.currentInstr = some i := by
  obtain ⟨-, w, hfetch, hdecode⟩ := about_iff.1 h
  simp [State.currentInstr, State.currentWord, hfetch, hdecode, Except.toOption]

/-- An operand the diagnostic reads back from the faulted state is that register of the faulting instruction, with the
value it had before the step. -/
theorem faulted_operand_of_about {s : State} {i : Instr} (h : About s i) (k : FaultKind) (f : Instr → Option RegIdx) :
    ((s.fault k).currentInstr.bind f).map (s.fault k).readReg = (f i).map s.readReg :=
  congrArg (fun j : Option Instr => (j.bind f).map s.readReg) (currentInstr_of_about h)

/-- Every faulted state offers a diagnostic, with the reason and the `pc` (R119). -/
theorem diagnostic_fault (s : State) (k : FaultKind) :
    ∃ d, (s.fault k).diagnostic = some d ∧ d.reason = k ∧ d.pc = s.pc := by
  cases k <;> exact ⟨_, rfl, rfl, rfl⟩

/-- Settles O49: the faulted state differs from the state before in the run state only, so the word, the length and the
operand registers read back from it are the faulting instruction's. -/
theorem diagnosticsNameTheFault : Obligations.DiagnosticsNameTheFault := by
  intro s t k hstep hfault
  obtain rfl := eq_fault_of_step hstep hfault
  obtain ⟨d, hd, hreason, hpc⟩ := diagnostic_fault s k
  have hopcode : k = .invalidOpcode → d.word = wordAt s 0 s.pc.toNat := by
    rintro rfl
    obtain rfl := Option.some.inj hd
    exact s.currentWord_eq_wordAt
  have hfetch : k = .outOfBoundsFetch → d.limit = some (s.mem.len 0) := by
    rintro rfl
    obtain rfl := Option.some.inj hd
    rfl
  have haccess {i : Instr} (habout : About s i) : k = .outOfBoundsAccess →
      d.handle = (handleOperand i).map s.readReg ∧ d.offset = (offsetOperand i).map s.readReg := by
    rintro rfl
    obtain rfl := Option.some.inj hd
    exact ⟨faulted_operand_of_about habout _ handleOperand, faulted_operand_of_about habout _ offsetOperand⟩
  have hsegment {i : Instr} (habout : About s i) : k = .invalidSegmentOp →
      d.handle = (handleOperand i).map s.readReg := by
    rintro rfl
    obtain rfl := Option.some.inj hd
    exact faulted_operand_of_about habout _ handleOperand
  have houtput {i : Instr} (habout : About s i) : k = .invalidOutputValue →
      d.value = (valueOperand i).map s.readReg := by
    rintro rfl
    obtain rfl := Option.some.inj hd
    exact faulted_operand_of_about habout _ valueOperand
  exact ⟨d, hd, hreason, hpc, hopcode, hfetch, fun _ _ _ => haccess, fun _ _ _ => haccess, fun _ _ => haccess,
    fun _ => hsegment, fun _ => houtput⟩

end Sys2Proof.Machine
end

section
/-! SUPPORT. The host loader's framing of an image (R134): chunk by chunk, the way `loadImage` recurses. -/

namespace Sys2Proof.Machine

/-- Four bytes make a number below `2^32`, so the word loses none of it (R134). -/
theorem toNat_bigEndian (b0 b1 b2 b3 : Byte) :
    (bigEndian b0 b1 b2 b3).toNat = b0.toNat * 2 ^ 24 + b1.toNat * 2 ^ 16 + b2.toNat * 2 ^ 8 + b3.toNat := by
  rw [bigEndian, BitVec.toNat_ofNat]
  exact Nat.mod_eq_of_lt (by omega)

/-- Each whole chunk gives one word and the bytes past the last give none (R134). -/
theorem length_loadImage (b : List Byte) : (loadImage b).length = b.length / 4 := by
  fun_induction loadImage b with
  | case1 b0 b1 b2 b3 rest ih => simp only [List.length_cons, ih]; omega
  | case2 | case3 | case4 | case5 => simp

/-- The word at a place is made of the four bytes of the chunk at that place (R134). -/
theorem getElem?_loadImage {b : List Byte} {i : Nat} {b0 b1 b2 b3 : Byte} (h0 : b[4 * i]? = some b0)
    (h1 : b[4 * i + 1]? = some b1) (h2 : b[4 * i + 2]? = some b2) (h3 : b[4 * i + 3]? = some b3) :
    (loadImage b)[i]? = some (bigEndian b0 b1 b2 b3) := by
  induction i generalizing b with
  | zero =>
    match b with
    | c0 :: c1 :: c2 :: c3 :: rest =>
      obtain rfl := Option.some.inj h0
      obtain rfl := Option.some.inj h1
      obtain rfl := Option.some.inj h2
      obtain rfl := Option.some.inj h3
      rfl
    | [_, _, _] | [_, _] | [_] | [] => simp at h3
  | succ i ih =>
    match b with
    | c0 :: c1 :: c2 :: c3 :: rest => exact ih h0 h1 h2 h3
    | [_, _, _] | [_, _] | [_] | [] => simp [Nat.mul_succ] at h3

/-- Settles O50: by induction on the chunks, each of which is one word. -/
theorem imageIsBigEndianWords : Obligations.ImageIsBigEndianWords := by
  intro b
  refine ⟨length_loadImage b, fun i b0 b1 b2 b3 h0 h1 h2 h3 => ?_⟩
  rw [getElem?_loadImage h0 h1 h2 h3, Option.map_some, toNat_bigEndian]

end Sys2Proof.Machine
end

section
/-! SUPPORT. The default `OPMAP`, whose numbering is PRESUMED (log 1), and the words the spec writes out under it (R55,
95_test_vectors.md section 2.2): the top four bits name the operation, and its format reads the fields. -/

namespace Sys2Proof.Machine

open Sys2Proof.Rules

/-- Settles O2: the table is a bijection, and each operation stands at the place that is its number. -/
theorem defaultOpcodeNumbers : Obligations.DefaultOpcodeNumbers :=
  ⟨OpMap.default_wf, by decide⟩

/-- Under the default `OPMAP` a word decodes to what the operation of its top bits reads from it (R60). -/
theorem decode_of_topBits {w : Word} {i : Instr} (op : Op) (htop : topBits w = OpMap.default.opcodeOf op)
    (hfields : assemble op w = i) : decode w = .ok i :=
  hfields ▸ decodeWith_of_topBits OpMap.default_wf htop

/-- A top value that the default `OPMAP` leaves unassigned is the one the decoder reports (R56). -/
theorem decode_of_unassigned {w : Word} {k : Nat} (htop : topBits w = k) (hk : 14 ≤ k) :
    decode w = .error (.unassignedOpcode k) := by
  subst htop
  exact decodeWith_of_unassigned OpMap.default hk

/-- Settles O1: for each word, the operation of its top bits and then the fields that operation reads; 14 and 15 name
no operation. -/
theorem specWordsDecode : Obligations.SpecWordsDecode :=
  ⟨decode_of_topBits .loadv rfl rfl, decode_of_topBits .out rfl rfl, decode_of_topBits .halt rfl rfl,
    decode_of_topBits .halt rfl rfl, decode_of_topBits .add rfl rfl, decode_of_topBits .unmap rfl rfl,
    decode_of_topBits .loadv rfl rfl, decode_of_topBits .cmov rfl rfl, decode_of_unassigned rfl (by decide),
    decode_of_unassigned rfl (by decide)⟩

end Sys2Proof.Machine
end
